-- ==== Sys2Proof/Word.lean ====
section
/-!
DEFINITION. The words of the block: the byte, the two-bit level, the four-level group and the pixel record
(00_scope.md R7, 10_state.md R12, 30_encoding.md R39). Every value is unsigned.
-/

namespace Sys2Proof

/-- `u8`: an alpha value, a colour component or one byte of the stream (R7; format `A` and format `B` of R39). -/
abbrev Byte := BitVec 8

/-- `lvl`: one alpha level, 0 to 3 (R7; format `L` of R39). -/
abbrev Level := BitVec 2

/-- Format `L4` of R39: four levels on four separate ports, `l0` the leftmost pixel of the group. The group
buffer `GBUF[0] .. GBUF[3]` of R21 has the same shape. -/
structure Levels where
  l0 : Level
  l1 : Level
  l2 : Level
  l3 : Level
  deriving DecidableEq, Repr, Inhabited

/-- R12: a pixel is the record `(r, g, b, a)`; all 256 values of each component are legal. -/
structure Pixel where
  r : Byte
  g : Byte
  b : Byte
  a : Byte
  deriving DecidableEq, Repr, Inhabited

end Sys2Proof
end

