-- ==== Sys2Proof/Config.lean ====
section
/-!
DEFINITION. What is fixed when the block is built (00_scope.md R4, R5), what the spec leaves to the platform
(92_eei_decisions.md D7), and the free values of unwritten buffer elements (93_implementation_defined.md U6).
-/

namespace Sys2Proof

/-- R4: the dimension parameters, with the bounds the spec admits. Every rule holds for every `Canvas`. -/
structure Canvas where
  W : Nat
  H : Nat
  hW : 1 ≤ W ∧ W ≤ 65535
  hH : 1 ≤ H ∧ H ≤ 65535
  deriving DecidableEq, Repr

/-- R4: `G = ceil(W / 4)`, the groups, and so the bytes, of one row. -/
def Canvas.G (c : Canvas) : Nat := (c.W + 3) / 4

/-- R4: `N = G * H`, the bytes of a packed stream (90_conflicts.md C1: not `W * H / 4`). -/
def Canvas.N (c : Canvas) : Nat := c.G * c.H

/-- R4: this hardware is the 320 by 240 instance. -/
def Config.canvas : Canvas := ⟨320, 240, by decide, by decide⟩

/-- U6, D20: FREE VALUE of byte `k` of `STRM` while nothing has written it since the `epoch`-th reset: an
arbitrary byte, drawn once and fixed from then on. It has no body, so nothing can be proved of its value
(notes/assumptions/1.md). -/
opaque Config.freeByte (epoch k : Nat) : Byte

/-- U6, D20: FREE VALUE of the pixel at column `x`, row `y` of `RAST` while nothing has written it since the
`epoch`-th reset (notes/assumptions/1.md). -/
opaque Config.freePixel (epoch x y : Nat) : Pixel

/-- D7, R33: where the platform maps `REG`; left open, and no rule depends on it (notes/assumptions/9.md). -/
opaque Config.regBase : Nat

/-- D7, R33: where the platform maps `RAST`; left open, and no rule depends on it. -/
opaque Config.rastBase : Nat

/-- D7, R33: where the platform maps `STRM`; left open, and no rule depends on it. -/
opaque Config.strmBase : Nat

end Sys2Proof
end

