-- ==== Sys2Proof/Syntax.lean ====
section
/-!
DEFINITION. The operations of the block (00_scope.md R2), one constructor per row of spec/opcode_table.json.
A unit operation carries what the host drives on the unit's input port; a frame command has no operand
(30_encoding.md R41: its operands are the buffers and the descriptors).
-/

namespace Sys2Proof

/-- The six operations of R2. -/
inductive Instr where
  /-- R48 `CLASSIFY a -> l`: format `A` on port `Q_A`. -/
  | classify (a : Byte)
  /-- R51 `PACK4 l0, l1, l2, l3 -> b`: format `L4` on ports `P_L0` to `P_L3`. -/
  | pack4 (l0 l1 l2 l3 : Level)
  /-- R56 `EXPAND l -> a`: format `L` on port `X_L`. -/
  | expand (l : Level)
  /-- R59 `UNPACK4 b -> l0, l1, l2, l3`: format `B` on port `U_B`. -/
  | unpack4 (b : Byte)
  /-- R53 `ENCODE`: command code `0x01`. -/
  | encode
  /-- R60 `DECODE`: command code `0x02`. -/
  | decode
  deriving DecidableEq, Repr

end Sys2Proof
end

