-- ==== Sys2Proof/WellFormed.lean ====
section
/-!
DEFINITION. Well-formedness: of an instruction (every operand value of every format is legal: R48, R51, R56,
R59, R40), and of the indices a host access names (20_memory.md R25, R34 and the register table of R16).
-/

namespace Sys2Proof

/-- Every constructor's operands are typed at the width of their port, and the spec calls no value of them
reserved or illegal: "every value 0 .. 255 is legal" (R48), "All 256 combinations are legal" (R51), "every
value is legal" (R56), "all 256 values are legal" (R59). A frame command has no operand (R41). -/
def Instr.wellFormed : Instr → Bool
  | .classify _ => true
  | .pack4 _ _ _ _ => true
  | .expand _ => true
  | .unpack4 _ => true
  | .encode => true
  | .decode => true

/-- R25, R34: `RAST` has a location for column `x`, row `y` exactly when `x < W` and `y < H`. -/
def Canvas.hasPixel (c : Canvas) (x y : Nat) : Bool := decide (x < c.W) && decide (y < c.H)

/-- R25, R34: `STRM` has a location for index `k` exactly when `k < N`. -/
def Canvas.hasByte (c : Canvas) (k : Nat) : Bool := decide (k < c.N)

/-- R16: the width in bits of control register `n`; "There are no others". -/
def registerWidth : Nat → Option Nat
  | 0 => some 8
  | 1 => some 8
  | 2 => some 16
  | 3 => some 16
  | 4 => some 32
  | _ => none

/-- R16, R31: the value `v` can be written to register `n`, "one register of `REG` at its own width". -/
def fitsRegister (n v : Nat) : Bool :=
  match registerWidth n with
  | some w => decide (v < 2 ^ w)
  | none => false

end Sys2Proof
end

