-- ==== Sys2Proof/Decode.lean ====
section
/-!
DEFINITION. Decoding (30_encoding.md R39 to R44). A frame command is selected by the 8-bit code written to
`CMD`; a unit operation has no opcode and is selected by driving its unit's port (R42). So the decoder takes
the place where the bits arrive and the bits: the byte is laid out as the row of spec/opcode_table.json lays
it out. It is total, and it rejects by name. The encoder below is written from the same tables.
-/

namespace Sys2Proof

/-- R42: the input ports of the four units. -/
inductive UnitPort where
  /-- `Q_A[7:0]`, the quantizer. -/
  | qA
  /-- `P_L0[1:0] .. P_L3[1:0]`, the packer, in the layout `aabbccdd` of its table row. -/
  | pL
  /-- `X_L[1:0]`, the LUT expander. -/
  | xL
  /-- `U_B[7:0]`, the unpacker. -/
  | uB
  deriving DecidableEq, Repr

/-- Where the bits of an operation arrive. -/
inductive Selector where
  /-- The command register `CMD` (R17, R43). -/
  | cmd
  /-- The input port of a unit (R42). -/
  | port (p : UnitPort)
  deriving DecidableEq, Repr

/-- Why bits select no operation. -/
inductive Reject where
  /-- R44: one of the 254 reserved command codes. -/
  | reservedCommand (code : Byte)
  /-- R42: a value that sets bits the port does not have (`X_L` has two bits). -/
  | portTooNarrow (p : UnitPort)
  deriving DecidableEq, Repr

/-- R7, R26: lane `i` of a packed byte, bits `[7-2i : 6-2i]`. -/
def lane (b : Byte) (i : Nat) : Level := b.extractLsb' (6 - 2 * i) 2

/-- R40: `{l0, l1, l2, l3}`, the first level in the most significant bits. -/
def joinLanes (ls : Levels) : Byte := ls.l0 ++ ls.l1 ++ ls.l2 ++ ls.l3

/-- R43: the whole byte is compared with the two codes; R44: every other value is reserved. -/
def decodeCommand (c : Byte) : Except Reject Instr :=
  if c = 0x01 then .ok .encode
  else if c = 0x02 then .ok .decode
  else .error (.reservedCommand c)

/-- R42: driving a port selects its unit; R39 to R41 give the operand in the driven value. -/
def decodePort (p : UnitPort) (w : Byte) : Except Reject Instr :=
  match p with
  | .qA => .ok (.classify w)
  | .pL => .ok (.pack4 (lane w 0) (lane w 1) (lane w 2) (lane w 3))
  | .xL => if w.toNat < 4 then .ok (.expand (w.setWidth 2)) else .error (.portTooNarrow .xL)
  | .uB => .ok (.unpack4 w)

/-- The decoder, total on every byte at every place. -/
def decode (sel : Selector) (w : Byte) : Except Reject Instr :=
  match sel with
  | .cmd => decodeCommand w
  | .port p => decodePort p w

/-- The encoder: where an instruction's bits go, and the bits (R40, R42, R43). -/
def encode (i : Instr) : Selector × Byte :=
  match i with
  | .classify a => (.port .qA, a)
  | .pack4 l0 l1 l2 l3 => (.port .pL, joinLanes ⟨l0, l1, l2, l3⟩)
  | .expand l => (.port .xL, l.setWidth 8)
  | .unpack4 b => (.port .uB, b)
  | .encode => (.cmd, 0x01)
  | .decode => (.cmd, 0x02)

/-- The table's numbering: a word of `nbits` bits is one byte, and a code in the table is a code written to
`CMD`, the only place of this block where a code selects an operation (R42, R43). A unit operation's row has
no code; it is decoded at its port, by `decode (.port p)` (notes/assumptions/4.md). -/
def decodeTableWord (nbits w : Nat) : Option Instr :=
  if nbits ≤ 8 ∧ w < 256 then
    match decode .cmd (BitVec.ofNat 8 w) with
    | .ok i => some i
    | .error _ => none
  else none

end Sys2Proof
end

