-- ==== Sys2Proof/Machine/State.lean ====
section
/-!
DEFINITION. The state of the block (10_state.md R10 to R24) and, beside it, what the host holds towards it:
the values it drives on the unit ports, the accesses it is about to make and what its reads have returned.
-/

namespace Sys2Proof.Machine

/-- A buffer: pairs of an index and the element the host or a command has written there since the last reset.
CANONICAL FORM: indices strictly rising (`Memory.wf` in Machine/Ops.lean). An index that is not listed has not
been written since the last reset and reads as the free value of Config (notes/assumptions/1.md). -/
abbrev Memory (α : Type) := List (Nat × α)

/-- R2: the two engines. A frame command runs one of them: R43 says which code starts which. -/
inductive Engine where
  | encoder
  | decoder
  deriving DecidableEq, Repr

/-- R64: what a command reports; IOError is no error of the block (R68). -/
inductive Err where
  /-- Code 0. -/
  | none
  /-- Code 1, ShapeError (R65). -/
  | shape
  /-- Code 2, LengthError (R66). -/
  | length
  /-- Code 3, IllegalCommand (R67). -/
  | illegal
  deriving DecidableEq, Repr

/-- R20, R21: the frame sequencer: its three counters and the group buffer, and beside them, as the MODEL'S CHOICE
(DESIGN CHOICE, notes/assumptions/14.md), the engine that runs. -/
structure Sequencer where
  /-- DESIGN CHOICE (notes/assumptions/14.md): which command is running. R10 lists no such state and `CMD` keeps no
  value (R17), so the spec does not say where a running block holds it; the model holds it here. -/
  engine : Engine
  /-- `Y`, the current row. -/
  y : BitVec 16
  /-- `X`, the column of the first pixel of the current group. -/
  x : BitVec 16
  /-- `CUR`, the index in `STRM` of the byte of the current group. -/
  cur : BitVec 32
  /-- `GBUF[0] .. GBUF[3]`. -/
  gbuf : Levels
  deriving DecidableEq, Repr

/-- R42: what the host drives on the input ports of the four units. The output ports are no state: they follow
these values (R22; `quantizerOut` and its like in Machine/Operands.lean). -/
structure Ports where
  /-- `Q_A`. -/
  qA : Byte
  /-- `P_L0` to `P_L3`. -/
  pL : Levels
  /-- `X_L`. -/
  xL : Level
  /-- `U_B`. -/
  uB : Byte
  deriving DecidableEq, Repr

/-- 30_encoding.md R47: one action of the host. -/
inductive HostAction where
  /-- `WR REG, v`: register by its number (R16). -/
  | writeReg (n : Nat) (v : BitVec 32)
  /-- `RD REG`. -/
  | readReg (n : Nat)
  /-- `WR RAST[x,y], (r,g,b,a)`. -/
  | writePixel (x y : Nat) (p : Pixel)
  /-- `RD RAST[x,y]`. -/
  | readPixel (x y : Nat)
  /-- `WR STRM[k], v`. -/
  | writeByte (k : Nat) (v : Byte)
  /-- `RD STRM[k]`. -/
  | readByte (k : Nat)
  /-- A unit operation: the host drives an input port (R42) and looks at the output port. -/
  | drive (p : UnitPort) (w : Byte)
  /-- `RESET` (70_reset_and_hazards.md R76). -/
  | reset
  deriving DecidableEq, Repr

/-- What an action of the host returns to it (the part after `->` in the notation of R47). -/
inductive Reply where
  /-- A register read, widened with zeros. -/
  | register (n : Nat) (v : BitVec 32)
  | pixel (p : Pixel)
  | byte (b : Byte)
  /-- `Q_L`. -/
  | level (l : Level)
  /-- `P_B`. -/
  | packed (b : Byte)
  /-- `X_A` and `X_PIX`. -/
  | alpha (a : Byte) (pix : BitVec 32)
  /-- `U_L0` to `U_L3`. -/
  | levels (ls : Levels)
  deriving DecidableEq, Repr

/-- R10: the whole state. `CMD` keeps no value (R17) and so has no field. -/
structure State where
  /-- R11: `RAST`, `W * H` pixels; the pixel at column `x`, row `y` has index `y * W + x`. -/
  rast : Memory Pixel
  /-- R14: `STRM`, `N` bytes. -/
  strm : List Host.Cell
  /-- R13: `RW`. -/
  rw : BitVec 16
  /-- R13: `RH`. -/
  rh : BitVec 16
  /-- R15: `SLEN`. -/
  slen : BitVec 32
  /-- R18: `STATUS`, the whole register. -/
  status : BitVec 8
  /-- R20, R21: the sequencer and the group buffer: the counters "exist only while `BUSY = 1`" (R20), and the group
  buffer is state "inside a running frame command only" (R10). With them stands the running engine, a DESIGN CHOICE
  (notes/assumptions/14.md). -/
  seq : Option Sequencer
  /-- R42: the values on the input ports of the units. They are the host's, not the block's (R22). -/
  ports : Ports
  /-- The model's own: how many resets there have been, which tells the free values of one session of the
  buffers from those of the next (R76; notes/assumptions/1.md). -/
  epoch : Nat
  /-- The model's own: the actions the host is about to take, in the order it issues them (R35). -/
  hostIn : List HostAction
  /-- The model's own: what the host's actions have returned, oldest first. -/
  replies : List Reply
  deriving DecidableEq, Repr

/-- Why a step stops. -/
inductive Fault where
  /-- Raised by a step of a running command (`seq` holds a sequencer) whose counters are not at a group of the
  canvas: R20 gives the counters no such value and R34 gives the index no location. No run reaches such a
  state, and no meaning of an instruction raises it. Safe: the machine stops where the spec says nothing. -/
  | sequencerOutOfRange
  deriving DecidableEq, Repr

/-- What the model gives no meaning, by name. -/
inductive Refusal where
  /-- Raised by an arm of exec for an instruction without a meaning; no arm is left that raises it. Safe. -/
  | notModelled (mnemonic : String)
  /-- Raised by ENCODE, DECODE and every access of the host but a read of `STATUS`, a reset and the driving of a
  unit's port, while `STATUS.BUSY = 1`: "a model gives such an access no meaning" (R38, U5). Safe. -/
  | accessWhileBusy
  /-- Raised by a host access outside the index ranges of R25 or with a register number above 4: "names no
  location ... and a model refuses it" (R34, U10). Safe. -/
  | noSuchLocation
  /-- Raised by a host write of a value wider than the register (R31: "one register of `REG` at its own width") or
  the port (R42) it goes to: there is no such access. Safe. -/
  | valueTooWide
  deriving DecidableEq, Repr

/-- What the next step is to do: run an instruction, or something that is no instruction and is already done. -/
inductive Fetched where
  | instr (i : Instr) (s : State)
  | done (o : Host.Outcome State Fault Refusal)

/-- The input ports before the host has driven them (notes/assumptions/3.md: DESIGN CHOICE). -/
def Ports.undriven : Ports := ⟨0, ⟨0, 0, 0, 0⟩, 0, 0⟩

/-- R24, R76: the state after reset. Both buffers list nothing: their contents are unspecified. -/
def State.reset : State where
  rast := []
  strm := []
  rw := 0
  rh := 0
  slen := 0
  status := 0
  seq := none
  ports := Ports.undriven
  epoch := 0
  hostIn := []
  replies := []

end Sys2Proof.Machine
end

