-- ==== Sys2Proof/Machine/Flags.lean ====
section
/-!
DEFINITION. `STATUS` and its fields (10_state.md R18): the only flags of the block.
-/

namespace Sys2Proof.Machine

/-- R64: the code of an error in `STATUS.ERR`. -/
def errCode : Err → BitVec 2
  | .none => 0
  | .shape => 1
  | .length => 2
  | .illegal => 3

/-- R18: the register with the given fields; bits 7:4 are 0. -/
def statusWord (busy done : Bool) (e : Err) : BitVec 8 :=
  (0 : BitVec 4) ++ errCode e ++ BitVec.ofBool done ++ BitVec.ofBool busy

/-- `STATUS` from the write that issues a command: "`BUSY <- 1`, `DONE <- 0`, `ERR <- 0`" (R18). -/
def statusIssued : BitVec 8 := statusWord true false .none

/-- `STATUS` at completion: "`BUSY <- 0`, `DONE <- 1`, `ERR <- code`" (R18). -/
def statusCompleted (e : Err) : BitVec 8 := statusWord false true e

/-- `STATUS.BUSY`, bit 0. -/
def State.busy (s : State) : Bool := s.status.getLsbD 0

/-- `STATUS.DONE`, bit 1. -/
def State.done (s : State) : Bool := s.status.getLsbD 1

/-- `STATUS.ERR`, bits 3:2. -/
def State.err (s : State) : BitVec 2 := s.status.extractLsb' 2 2

/-- What a read of `STATUS` returns: "7:4 reserved, read as 0" (R18). -/
def State.statusRead (s : State) : BitVec 8 := s.status &&& 0x0F

end Sys2Proof.Machine
end

