-- ==== Sys2Proof/Machine/Operands.lean ====
section
/-!
DEFINITION. The operand formats of 30_encoding.md R39 to R41, the pixel word of 20_memory.md R28 and the
functions of the four units (R48, R51, R56, R57, R59), each a total function of its input alone (R22).
-/

namespace Sys2Proof.Machine

/-- R28: the pixel on the 32-bit `RAST` port, `{r, g, b, a}`. -/
def pixelWord (p : Pixel) : BitVec 32 := p.r ++ p.g ++ p.b ++ p.a

/-- R28, the other way: the pixel of a 32-bit port word. -/
def pixelOfWord (w : BitVec 32) : Pixel :=
  ⟨w.extractLsb' 24 8, w.extractLsb' 16 8, w.extractLsb' 8 8, w.extractLsb' 0 8⟩

/-- R21: `GBUF[i]`, or `i`-th level of a group. -/
def laneOf (ls : Levels) : Nat → Level
  | 0 => ls.l0
  | 1 => ls.l1
  | 2 => ls.l2
  | _ => ls.l3

/-- R48 `CLASSIFY`: thresholds 0, 85 and 170, compared as unsigned numbers. -/
def classify (a : Byte) : Level :=
  if a.toNat = 0 then 0
  else if a.toNat < 85 then 1
  else if a.toNat < 170 then 2
  else 3

/-- R51 `PACK4`: `(zext_8(l0) << 6) | (zext_8(l1) << 4) | (zext_8(l2) << 2) | zext_8(l3)`. -/
def pack4 (ls : Levels) : Byte :=
  (ls.l0.setWidth 8 <<< 6) ||| (ls.l1.setWidth 8 <<< 4) ||| (ls.l2.setWidth 8 <<< 2) ||| ls.l3.setWidth 8

/-- R56 `EXPAND`: the table 0, 64, 128, 255. -/
def expand (l : Level) : Byte :=
  if l = 0 then 0
  else if l = 1 then 64
  else if l = 2 then 128
  else 255

/-- R57 `PIXEL(l)`: white, with the alpha of the level. -/
def pixelOfLevel (l : Level) : Pixel := ⟨255, 255, 255, expand l⟩

/-- R59 `UNPACK4`: `(b >> 6) & 0b11`, `(b >> 4) & 0b11`, `(b >> 2) & 0b11`, `b & 0b11`. -/
def unpack4 (b : Byte) : Levels :=
  ⟨((b >>> 6) &&& 0b11).setWidth 2, ((b >>> 4) &&& 0b11).setWidth 2,
   ((b >>> 2) &&& 0b11).setWidth 2, (b &&& 0b11).setWidth 2⟩

/-- R42: output port `Q_L` follows `Q_A`. -/
def quantizerOut (p : Ports) : Level := classify p.qA

/-- R42: output port `P_B` follows `P_L0` to `P_L3`. -/
def packerOut (p : Ports) : Byte := pack4 p.pL

/-- R42: output port `X_A` follows `X_L`. -/
def expanderOut (p : Ports) : Byte := expand p.xL

/-- R42, R57: output port `X_PIX`, the pixel word `{255, 255, 255, X_A}`. -/
def expanderPix (p : Ports) : BitVec 32 := pixelWord (pixelOfLevel p.xL)

/-- R42: output ports `U_L0` to `U_L3` follow `U_B`. -/
def unpackerOut (p : Ports) : Levels := unpack4 p.uB

end Sys2Proof.Machine
end

