-- ==== Sys2Proof/Machine/Ops.lean ====
section
/-!
DEFINITION. The named operations over the buffers, the registers and the sequencer, and the three ways a
command changes the block as a whole: it is issued, it raises an error, it completes (10_state.md R18,
60_exceptions.md R70, R71).
-/

namespace Sys2Proof.Machine

/-- The element written at index `k` since the last reset, if one was. -/
def Memory.lookup {α : Type} : Memory α → Nat → Option α
  | [], _ => none
  | (j, v) :: m, k => if j = k then some v else Memory.lookup m k

/-- Write `v` at index `k`, keeping the indices strictly rising. -/
def Memory.write {α : Type} : Memory α → Nat → α → Memory α
  | [], k, v => [(k, v)]
  | (j, w) :: m, k, v =>
    if k < j then (k, v) :: (j, w) :: m
    else if k = j then (k, v) :: m
    else (j, w) :: Memory.write m k v

/-- Every index is at least `lo` and below `size`, and the indices rise strictly. -/
def Memory.wfFrom {α : Type} (lo size : Nat) : Memory α → Bool
  | [] => true
  | (j, _) :: m => decide (lo ≤ j) && decide (j < size) && Memory.wfFrom (j + 1) size m

/-- The canonical form of a buffer of `size` elements: rising indices, all of them locations of the buffer
(R11: "it has no location for any other position"). -/
def Memory.wf {α : Type} (size : Nat) (m : Memory α) : Bool := Memory.wfFrom 0 size m

/-- Where the pixel at column `x`, row `y` stands in the list: rows in order, columns in order within a row. -/
def pixelIndex (c : Canvas) (x y : Nat) : Nat := y * c.W + x

/-- R29: the index in `STRM` of the byte that holds the level of the pixel at `(x, y)`. -/
def byteIndex (c : Canvas) (x y : Nat) : Nat := y * c.G + x / 4

/-- `STRM[k]`: what was written there, or the free value of an element nothing has written since reset (U6). -/
def State.byteAt (s : State) (k : Nat) : Byte :=
  (Memory.lookup s.strm k).getD (Config.freeByte s.epoch k)

/-- `RAST[y][x]`: what was written there, or the free value (U6). -/
def State.pixelAt (c : Canvas) (s : State) (x y : Nat) : Pixel :=
  (Memory.lookup s.rast (pixelIndex c x y)).getD (Config.freePixel s.epoch x y)

/-- `STRM[k] <- v`. -/
def State.setByte (s : State) (k : Nat) (v : Byte) : State :=
  { s with strm := Memory.write s.strm k v }

/-- `RAST[y][x] <- p`. -/
def State.setPixel (c : Canvas) (s : State) (x y : Nat) (p : Pixel) : State :=
  { s with rast := Memory.write s.rast (pixelIndex c x y) p }

/-- A value returned to the host (R47, after `->`). -/
def State.reply (s : State) (r : Reply) : State := { s with replies := s.replies ++ [r] }

/-- R20: where every frame command starts; R24: the group buffer is "set at the start of each command". -/
def Sequencer.start (e : Engine) : Sequencer := ⟨e, 0, 0, 0, ⟨0, 0, 0, 0⟩⟩

/-- R20: the advance at the end of a group step. -/
def Sequencer.advance (c : Canvas) (q : Sequencer) : Sequencer :=
  if q.x.toNat + 4 < c.W then { q with cur := q.cur + 1, x := q.x + 4 }
  else { q with cur := q.cur + 1, x := 0, y := q.y + 1 }

/-- R20: the counters are at a group of the canvas, or past the last one. -/
def Sequencer.inRange (c : Canvas) (q : Sequencer) : Bool :=
  decide (q.y.toNat ≤ c.H) && decide (q.x.toNat < c.W) && decide (q.x.toNat % 4 = 0)
    && decide (q.cur.toNat = q.y.toNat * c.G + q.x.toNat / 4)
    && decide (q.y.toNat = c.H → q.x.toNat = 0)

/-- R18: the write that issues a command starts its engine. -/
def State.issue (s : State) (e : Engine) : State :=
  { s with status := statusIssued, seq := some (Sequencer.start e) }

/-- TAKING AN EXCEPTION. R70 `raise <Error>`: the command ends at once; `STATUS` is the whole effect. The block
saves nothing and goes nowhere, so there is no return from an error either (R72). -/
def State.raise (s : State) (e : Err) : State :=
  { s with status := statusCompleted e, seq := none }

/-- R71: a command that raised no error ends. -/
def State.complete (s : State) : State :=
  { s with status := statusCompleted .none, seq := none }

/-- R76, R24: the reset, from any state. What is the host's (the ports it drives, its pending actions and what it
has been told) is no state of the block; the buffers' unspecified contents are drawn anew. -/
def State.resetBlock (s : State) : State :=
  { State.reset with ports := s.ports, epoch := s.epoch + 1, hostIn := s.hostIn, replies := s.replies }

/-- R16: what a host read of register `n` returns, widened with zeros: `CMD` reads as 0 (R17). -/
def State.regRead (s : State) : Nat → Option (BitVec 32)
  | 0 => some 0
  | 1 => some (s.statusRead.setWidth 32)
  | 2 => some (s.rw.setWidth 32)
  | 3 => some (s.rh.setWidth 32)
  | 4 => some s.slen
  | _ => none

/-- R16: a host write to register 1 to 4: `STATUS` ignores it (R18), a descriptor takes it (R13, R15). A write to
`CMD` is a command and does not come here. -/
def State.regWrite (s : State) (n : Nat) (v : BitVec 32) : State :=
  match n with
  | 2 => { s with rw := v.setWidth 16 }
  | 3 => { s with rh := v.setWidth 16 }
  | 4 => { s with slen := v }
  | _ => s

end Sys2Proof.Machine
end

