-- ==== Sys2Proof/Machine/Engines.lean ====
section
/-!
DEFINITION. The group steps of the two engines in the reference order (10_state.md R20, R21; 41_packer_encoder.md
R52, R53; 43_unpacker_decoder.md R60), over any canvas, and a whole command as the run of them.
-/

namespace Sys2Proof.Machine

/-- R52: lane `i` of the group that starts at column `x0` of row `y`: the class of the pixel's alpha, or the padding
level 0 at or beyond `W`, which reads nothing from `RAST`. -/
def groupLevel (c : Canvas) (s : State) (x0 y i : Nat) : Level :=
  if x0 + i < c.W then classify (s.pixelAt c (x0 + i) y).a else 0

/-- R52: `GBUF` as the encoder fills it; every entry is set anew at every group (R21, R80). -/
def loadGroup (c : Canvas) (s : State) (x0 y : Nat) : Levels :=
  ⟨groupLevel c s x0 y 0, groupLevel c s x0 y 1, groupLevel c s x0 y 2, groupLevel c s x0 y 3⟩

/-- R52 `ENCGROUP(y, x0)`. -/
def encGroup (c : Canvas) (s : State) (x0 y : Nat) : Byte := pack4 (loadGroup c s x0 y)

/-- One lane of the decoder's write: "if `X + i < W` then `RAST[Y][X + i] <- PIXEL(GBUF[i])`", else nothing (R60). -/
def storeLane (c : Canvas) (x y : Nat) (l : Level) (s : State) : State :=
  if x < c.W then s.setPixel c x y (pixelOfLevel l) else s

/-- R60: the four lanes of a group, left to right. -/
def storeGroup (c : Canvas) (x0 y : Nat) (g : Levels) (s : State) : State :=
  storeLane c (x0 + 3) y g.l3 (storeLane c (x0 + 2) y g.l2 (storeLane c (x0 + 1) y g.l1 (storeLane c x0 y g.l0 s)))

/-- R53: one group step of ENCODE at the sequencer position `q`. -/
def encodeGroup (c : Canvas) (q : Sequencer) (s : State) : State :=
  let g := loadGroup c s q.x.toNat q.y.toNat
  { s.setByte q.cur.toNat (pack4 g) with seq := some (Sequencer.advance c { q with gbuf := g }) }

/-- R60: one group step of DECODE at the sequencer position `q`. -/
def decodeGroup (c : Canvas) (q : Sequencer) (s : State) : State :=
  let g := unpack4 (s.byteAt q.cur.toNat)
  { storeGroup c q.x.toNat q.y.toNat g s with seq := some (Sequencer.advance c { q with gbuf := g }) }

/-- R20: one group step of the engine that runs, as the model holds it (DESIGN CHOICE, notes/assumptions/14.md). -/
def groupStep (c : Canvas) (q : Sequencer) (s : State) : State :=
  match q.engine with
  | .encoder => encodeGroup c q s
  | .decoder => decodeGroup c q s

/-- R53, R60: after the last group the engine writes the descriptor of its output (R15, R13) and completes (R71). -/
def finish (c : Canvas) (q : Sequencer) (s : State) : State :=
  match q.engine with
  | .encoder => State.complete { s with slen := BitVec.ofNat 32 c.N }
  | .decoder => State.complete { s with rw := BitVec.ofNat 16 c.W, rh := BitVec.ofNat 16 c.H }

/-- R20: a running command takes one group step while `Y < H`, and then ends. -/
def engineStep (c : Canvas) (s : State) : State :=
  match s.seq with
  | none => s
  | some q => if q.y.toNat < c.H then groupStep c q s else finish c q s

/-- `n` steps of the engine. -/
def runEngine (c : Canvas) : Nat → State → State
  | 0, s => s
  | n + 1, s => runEngine c n (engineStep c s)

/-- R65: the shape check of ENCODE. -/
def shapeOk (c : Canvas) (s : State) : Bool := decide (s.rw.toNat = c.W) && decide (s.rh.toNat = c.H)

/-- R66: the length check of DECODE. -/
def lengthOk (c : Canvas) (s : State) : Bool := decide (s.slen.toNat = c.N)

/-- R53: ENCODE from the write to `CMD` to its completion: the check, then `N` group steps and the end (R83). -/
def encodeOn (c : Canvas) (s : State) : State :=
  let t := s.issue .encoder
  if shapeOk c t then runEngine c (c.N + 1) t else t.raise .shape

/-- R60: DECODE from the write to `CMD` to its completion. -/
def decodeOn (c : Canvas) (s : State) : State :=
  let t := s.issue .decoder
  if lengthOk c t then runEngine c (c.N + 1) t else t.raise .length

end Sys2Proof.Machine
end

