-- ==== Sys2Proof/Machine/Decoder.lean ====
section
/-!
DEFINITION. The Decoder (43_unpacker_decoder.md, section 2).
-/

namespace Sys2Proof.Machine

/-- R60 `DECODE` on this hardware, as one atomic step (00_scope.md R6). While another command runs the write that
would issue it has no meaning (R38, U5). -/
def execDecode (s : State) : Host.Outcome State Fault Refusal :=
  if s.busy then .refused .accessWhileBusy else .next (decodeOn Config.canvas s)

end Sys2Proof.Machine
end

