-- ==== Sys2Proof/Machine/Encoder.lean ====
section
/-!
DEFINITION. The Encoder (41_packer_encoder.md, section 3).
-/

namespace Sys2Proof.Machine

/-- R53 `ENCODE` on this hardware, as one atomic step (00_scope.md R6). While another command runs the write that
would issue it has no meaning (R38, U5). -/
def execEncode (s : State) : Host.Outcome State Fault Refusal :=
  if s.busy then .refused .accessWhileBusy else .next (encodeOn Config.canvas s)

end Sys2Proof.Machine
end

