-- ==== Sys2Proof/Machine/Expander.lean ====
section
/-!
DEFINITION. The level-to-alpha LUT expander (42_lut_expander.md).
-/

namespace Sys2Proof.Machine

/-- R56 `EXPAND l -> a`: the host drives `X_L` and sees `X_A` and the pixel word `X_PIX` (R57). -/
def execExpand (l : Level) (s : State) : Host.Outcome State Fault Refusal :=
  let p := { s.ports with xL := l }
  .next (State.reply { s with ports := p } (.alpha (expanderOut p) (expanderPix p)))

end Sys2Proof.Machine
end

