-- ==== Sys2Proof/Machine/Packer.lean ====
section
/-!
DEFINITION. The packer unit (41_packer_encoder.md, section 1).
-/

namespace Sys2Proof.Machine

/-- R51 `PACK4 l0, l1, l2, l3 -> b`: the host drives `P_L0` to `P_L3` and sees `P_B`. -/
def execPack4 (l0 l1 l2 l3 : Level) (s : State) : Host.Outcome State Fault Refusal :=
  let p := { s.ports with pL := ⟨l0, l1, l2, l3⟩ }
  .next (State.reply { s with ports := p } (.packed (packerOut p)))

end Sys2Proof.Machine
end

