-- ==== Sys2Proof/Machine/Quantizer.lean ====
section
/-!
DEFINITION. The quantizer unit (40_quantizer.md).
-/

namespace Sys2Proof.Machine

/-- R48 `CLASSIFY a -> l`: the host drives `Q_A` and sees `Q_L`. No flag and no state of the block is written;
the unit works at any time, beside a running command too (R42). -/
def execClassify (a : Byte) (s : State) : Host.Outcome State Fault Refusal :=
  let p := { s.ports with qA := a }
  .next (State.reply { s with ports := p } (.level (quantizerOut p)))

end Sys2Proof.Machine
end

