-- ==== Sys2Proof/Machine/Unpacker.lean ====
section
/-!
DEFINITION. The unpacker unit (43_unpacker_decoder.md, section 1).
-/

namespace Sys2Proof.Machine

/-- R59 `UNPACK4 b -> l0, l1, l2, l3`: the host drives `U_B` and sees `U_L0` to `U_L3`. -/
def execUnpack4 (b : Byte) (s : State) : Host.Outcome State Fault Refusal :=
  let p := { s.ports with uB := b }
  .next (State.reply { s with ports := p } (.levels (unpackerOut p)))

end Sys2Proof.Machine
end

