-- ==== Sys2Proof/Machine/Dispatch.lean ====
section
/-!
DEFINITION. exec: one arm per operation, each one call of its meaning.
-/

namespace Sys2Proof.Machine

def exec (i : Instr) (s : State) : Host.Outcome State Fault Refusal :=
  match i with
  | .classify a => Sys2Proof.Machine.execClassify a s
  | .pack4 l0 l1 l2 l3 => Sys2Proof.Machine.execPack4 l0 l1 l2 l3 s
  | .expand l => Sys2Proof.Machine.execExpand l s
  | .unpack4 b => Sys2Proof.Machine.execUnpack4 b s
  | .encode => Sys2Proof.Machine.execEncode s
  | .decode => Sys2Proof.Machine.execDecode s

end Sys2Proof.Machine
end

