-- ==== Sys2Proof/Machine/HostPort.lean ====
section
/-!
DEFINITION. The host's side (20_memory.md R25, R31 to R38; 30_encoding.md R42 to R44, R47; 70_reset_and_hazards.md
R76, R78): what an action of the host does, which of them hold an instruction, and what the block does when the
host does nothing.
-/

namespace Sys2Proof.Machine

/-- R38, R42, R76: what the host may do while `STATUS.BUSY = 1`: read `STATUS`, drive a unit's port, reset. -/
def allowedWhileBusy : HostAction → Bool
  | .readReg 1 => true
  | .drive _ _ => true
  | .reset => true
  | _ => false

/-- R43, R44: a write of the code `v` to `CMD`: a frame command, or the IllegalCommand error (R67) with no other
effect. -/
def writeCommand (v : Byte) (s : State) : Fetched :=
  match decode .cmd v with
  | .ok i => .instr i s
  | .error _ => .done (.next (s.raise .illegal))

/-- R16, R17, R34: a host write to register `n`. -/
def hostWriteReg (n : Nat) (v : BitVec 32) (s : State) : Fetched :=
  match registerWidth n with
  | none => .done (.refused .noSuchLocation)
  | some _ =>
    if fitsRegister n v.toNat then
      if n = 0 then writeCommand (v.setWidth 8) s else .done (.next (s.regWrite n v))
    else .done (.refused .valueTooWide)

/-- R42: the host drives a unit's input port: the unit operation it selects. -/
def hostDrive (p : UnitPort) (w : Byte) (s : State) : Fetched :=
  match decode (.port p) w with
  | .ok i => .instr i s
  | .error _ => .done (.refused .valueTooWide)

/-- An action of the host that is allowed at its moment. A read changes nothing but what the host has been told
(R32); an index outside R25 names no location (R34). -/
def hostAct (c : Canvas) (a : HostAction) (s : State) : Fetched :=
  match a with
  | .writeReg n v => hostWriteReg n v s
  | .readReg n =>
    match s.regRead n with
    | some v => .done (.next (s.reply (.register n v)))
    | none => .done (.refused .noSuchLocation)
  | .writePixel x y p =>
    if c.hasPixel x y then .done (.next (s.setPixel c x y p)) else .done (.refused .noSuchLocation)
  | .readPixel x y =>
    if c.hasPixel x y then .done (.next (s.reply (.pixel (s.pixelAt c x y)))) else .done (.refused .noSuchLocation)
  | .writeByte k v =>
    if c.hasByte k then .done (.next (s.setByte k v)) else .done (.refused .noSuchLocation)
  | .readByte k =>
    if c.hasByte k then .done (.next (s.reply (.byte (s.byteAt k)))) else .done (.refused .noSuchLocation)
  | .drive p w => hostDrive p w s
  | .reset => .done (.next s.resetBlock)

/-- The block with no action of the host before it: between commands it waits (R76), inside a command (a state the
atomic commands of R6 never leave behind) the engine goes on by one step. -/
def idle (c : Canvas) (s : State) : Host.Outcome State Fault Refusal :=
  match s.seq with
  | none => .next s
  | some q => if q.inRange c then .next (engineStep c s) else .fault .sequencerOutOfRange

/-- What the next step does on the canvas `c`: the host's actions are taken in the order it issues them (R35), each
on the state without it; while `BUSY = 1` only those of R38 have a meaning (U5). -/
def fetchOn (c : Canvas) (s : State) : Fetched :=
  match s.hostIn with
  | [] => .done (idle c s)
  | a :: rest =>
    if s.busy && !allowedWhileBusy a then .done (.refused .accessWhileBusy)
    else hostAct c a { s with hostIn := rest }

/-- What the next step of this hardware does. -/
def fetch (s : State) : Fetched := fetchOn Config.canvas s

/-- R47: the pseudo-operation `ENCODE`. -/
def pseudoEncode : HostAction := .writeReg 0 0x01

/-- R47: the pseudo-operation `DECODE`. -/
def pseudoDecode : HostAction := .writeReg 0 0x02

/-- R47: `FILL RAST, (r,g,b,a)`. -/
def pseudoFillRast (c : Canvas) (p : Pixel) : List HostAction :=
  (List.range c.H).flatMap fun y => (List.range c.W).map fun x => .writePixel x y p

/-- R47: `FILL STRM, v`. -/
def pseudoFillStrm (c : Canvas) (v : Byte) : List HostAction :=
  (List.range c.N).map fun k => .writeByte k v

/-- R47: `SETRASTER w, h`. -/
def pseudoSetRaster (w h : BitVec 16) : List HostAction :=
  [.writeReg 2 (w.setWidth 32), .writeReg 3 (h.setWidth 32)]

/-- R47: `SETSTREAM n`. -/
def pseudoSetStream (n : BitVec 32) : List HostAction := [.writeReg 4 n]

end Sys2Proof.Machine
end

