-- ==== Sys2Proof/Machine/Step.lean ====
section
/-!
DEFINITION. One step of the machine: the host's next action, or the waiting block (00_scope.md R6).
-/

namespace Sys2Proof.Machine

/-- One step: fetch, and run what was fetched. -/
def step (s : State) : Host.Outcome State Fault Refusal :=
  match fetch s with
  | .instr i t => exec i t
  | .done o => o

/-- `s` with a host write of the command code `w` to `CMD` before it: the only way a code reaches this block (R17,
R37; notes/assumptions/4.md). -/
def State.withFetchWord (s : State) (_nbits w : Nat) : State :=
  { s with hostIn := .writeReg 0 (BitVec.ofNat 32 w) :: s.hostIn }

end Sys2Proof.Machine
end

