-- ==== Sys2Proof/Safety.lean ====
section
/-!
DEFINITION. What counts as a state of the block between or inside commands, as the end of a run
(70_reset_and_hazards.md R84) and as a host that has kept its duty (R77), in the terms statements use.
-/

namespace Sys2Proof.Machine

/-- The shape every state of the block has. -/
structure State.Inv (c : Canvas) (s : State) : Prop where
  /-- R11: `RAST` is in canonical form and lists no position outside the canvas. -/
  rast_wf : Memory.wf (c.W * c.H) s.rast = true
  /-- R14: `STRM` is in canonical form and lists no index at or above `N`. -/
  strm_wf : Memory.wf c.N s.strm = true
  /-- R18: `STATUS` is 0 (reset), issued, or completed with a code of R64; bits 7:4 are 0. -/
  status_legal : s.status = 0 ∨ s.status = statusIssued ∨ ∃ e, s.status = statusCompleted e
  /-- R20: the sequencer exists exactly while `BUSY = 1`. -/
  busy_iff : s.busy = s.seq.isSome
  /-- R20: the counters are where a group step may find them. -/
  seq_inRange : ∀ q, s.seq = some q → Sequencer.inRange c q = true

/-- R18, R84: no command is running. -/
def State.Settled (s : State) : Prop := s.busy = false ∧ s.seq = none

/-- R84, an error end of a run from `s`: "everything but `STATUS` is as it was at the start" (R70). -/
def ErrorEnd (s t : State) (e : Err) : Prop :=
  t.busy = false ∧ t.done = true ∧ t.err = errCode e ∧ t.seq = none ∧
    t = { s with status := t.status, seq := none }

/-- R84, the good end of an ENCODE from `s`: what R54, R53 and R71 give. -/
structure GoodEncodeEnd (c : Canvas) (s t : State) : Prop where
  busy : t.busy = false
  done : t.done = true
  err : t.err = 0
  seq : t.seq = none
  slen : t.slen.toNat = c.N
  strm : ∀ k, k < c.N → t.byteAt k = encGroup c s (4 * (k % c.G)) (k / c.G)
  rest : t = { s with strm := t.strm, slen := t.slen, status := t.status, seq := none }

/-- R84, the good end of a DECODE from `s`: what R61, R60 and R71 give. -/
structure GoodDecodeEnd (c : Canvas) (s t : State) : Prop where
  busy : t.busy = false
  done : t.done = true
  err : t.err = 0
  seq : t.seq = none
  rw : t.rw.toNat = c.W
  rh : t.rh.toNat = c.H
  rast : ∀ x y, x < c.W → y < c.H →
    t.pixelAt c x y = pixelOfLevel (lane (s.byteAt (byteIndex c x y)) (x % 4))
  rest : t = { s with rast := t.rast, rw := t.rw, rh := t.rh, status := t.status, seq := none }

/-- R77, the host's duty before ENCODE: every pixel of `RAST` written since the last reset. -/
def State.RasterWritten (c : Canvas) (s : State) : Prop :=
  ∀ x y, x < c.W → y < c.H → (Memory.lookup s.rast (pixelIndex c x y)).isSome = true

/-- R77, the host's duty before DECODE: bytes `0 .. N-1` of `STRM` written since the last reset. -/
def State.StreamWritten (c : Canvas) (s : State) : Prop :=
  ∀ k, k < c.N → (Memory.lookup s.strm k).isSome = true

end Sys2Proof.Machine
end

