-- ==== Sys2Proof/Certificates/Slice0/Obligations.lean ====
section
/-!
DEFINITION. The statements for the provers. Each docstring names the rule of spec/ a statement formalises. `STATUS` values
are the whole register (95_test_vectors.md, conventions): 0x02 done without error, 0x06 ShapeError, 0x0A LengthError,
0x0E IllegalCommand.
-/

open Sys2Proof Sys2Proof.Machine

/-! ### Encoding -/

/-- R39 to R43: for every instruction, decoding its encoding where it is sent gives it back with every operand, and a
byte that decodes to an instruction is that instruction's only encoding. -/
def Obligations.DecodeAndEncodeAgree : Prop :=
  (∀ i : Instr, decode (encode i).1 (encode i).2 = .ok i) ∧
  (∀ (sel : Selector) (w : Byte) (i : Instr), decode sel w = .ok i → encode i = (sel, w))

/-- R43: the two command codes, the whole byte compared, and every other value of `c` reserved. -/
def Obligations.CommandCodesDecodeWhole : Prop :=
  decode .cmd 0x01 = .ok .encode ∧ decode .cmd 0x02 = .ok .decode ∧
  ∀ c : Byte, c ≠ 0x01 → c ≠ 0x02 → decode .cmd c = .error (.reservedCommand c)

/-- A few words written out from the spec's encodings (30_encoding.md R40, R42, R43; vectors 2.2 and 2.4). -/
def Obligations.SpecWordsDecode : Prop :=
  decode (.port .qA) 0x55 = .ok (.classify 85) ∧ decode (.port .pL) 0x1B = .ok (.pack4 0 1 2 3) ∧
  decode (.port .pL) 0xC0 = .ok (.pack4 3 0 0 0) ∧ decode (.port .xL) 0x02 = .ok (.expand 2) ∧
  decode (.port .uB) 0xE4 = .ok (.unpack4 0xE4) ∧ decodeTableWord 8 1 = some .encode ∧
  decodeTableWord 8 2 = some .decode ∧ decodeTableWord 8 0 = none

/-- R40: the fields of the packed byte and its value; every byte is a valid packed byte. -/
def Obligations.PackedByteFields : Prop :=
  (∀ l0 l1 l2 l3 : Level,
    (pack4 ⟨l0, l1, l2, l3⟩).extractLsb' 6 2 = l0 ∧ (pack4 ⟨l0, l1, l2, l3⟩).extractLsb' 4 2 = l1 ∧
    (pack4 ⟨l0, l1, l2, l3⟩).extractLsb' 2 2 = l2 ∧ (pack4 ⟨l0, l1, l2, l3⟩).extractLsb' 0 2 = l3 ∧
    pack4 ⟨l0, l1, l2, l3⟩
      = (l0.setWidth 8 <<< 6) ||| (l1.setWidth 8 <<< 4) ||| (l2.setWidth 8 <<< 2) ||| l3.setWidth 8) ∧
  ∀ b : Byte, ∃ ls : Levels, pack4 ls = b

/-- R28: the pixel word `{r, g, b, a}`, component by component, and back. -/
def Obligations.PixelWordLayout : Prop :=
  ∀ p : Pixel, (pixelWord p).extractLsb' 24 8 = p.r ∧ (pixelWord p).extractLsb' 16 8 = p.g ∧
    (pixelWord p).extractLsb' 8 8 = p.b ∧ (pixelWord p).extractLsb' 0 8 = p.a ∧ pixelOfWord (pixelWord p) = p

/-- R29, R30, R81: over every canvas the byte of a pixel's group is inside the stream, and two pixels share a byte only
if they are in one group of one row: rows and groups never share a byte. -/
def Obligations.GroupsNeverShareAByte : Prop :=
  ∀ (c : Canvas) (x y x' y' : Nat), x < c.W → y < c.H → x' < c.W → y' < c.H →
    byteIndex c x y = y * c.G + x / 4 ∧ byteIndex c x y < c.N ∧
    (byteIndex c x y = byteIndex c x' y' ↔ y = y' ∧ x / 4 = x' / 4)

/-! ### The units -/

/-- R48: CLASSIFY completes in every state; `Q_L` is the class of `a` by the four bands, which have 1, 84, 85 and 86
members; no other port and no state of the block changes. (That the result is also returned to the host is
UnitResultsAreReturned.) -/
def Obligations.ClassifyRuns : Prop :=
  (∀ (a : Byte) (s : State), ∃ (t : State) (l : Level),
    exec (.classify a) s = .next t ∧ quantizerOut t.ports = l ∧
    (a.toNat = 0 → l = 0) ∧ (1 ≤ a.toNat ∧ a.toNat < 85 → l = 1) ∧
    (85 ≤ a.toNat ∧ a.toNat < 170 → l = 2) ∧ (170 ≤ a.toNat → l = 3) ∧
    t = { s with ports := { s.ports with qA := a }, replies := t.replies }) ∧
  ((List.range 256).countP fun n => classify (BitVec.ofNat 8 n) = 0) = 1 ∧
  ((List.range 256).countP fun n => classify (BitVec.ofNat 8 n) = 1) = 84 ∧
  ((List.range 256).countP fun n => classify (BitVec.ofNat 8 n) = 2) = 85 ∧
  ((List.range 256).countP fun n => classify (BitVec.ofNat 8 n) = 3) = 86

/-- R51: PACK4 completes in every state; `P_B` is `{l0, l1, l2, l3}`, which is `64 l0 + 16 l1 + 4 l2 + l3`; UNPACK4 is its
inverse on both sides; no other port and no state of the block changes. -/
def Obligations.Pack4Runs : Prop :=
  (∀ b : Byte, pack4 (unpack4 b) = b) ∧
  ∀ (l0 l1 l2 l3 : Level) (s : State), ∃ (t : State) (b : Byte),
    exec (.pack4 l0 l1 l2 l3) s = .next t ∧ packerOut t.ports = b ∧
    b.toNat = 64 * l0.toNat + 16 * l1.toNat + 4 * l2.toNat + l3.toNat ∧
    b.extractLsb' 6 2 = l0 ∧ b.extractLsb' 4 2 = l1 ∧ b.extractLsb' 2 2 = l2 ∧ b.extractLsb' 0 2 = l3 ∧
    unpack4 b = ⟨l0, l1, l2, l3⟩ ∧
    t = { s with ports := { s.ports with pL := ⟨l0, l1, l2, l3⟩ }, replies := t.replies }

/-- R56, R57: EXPAND completes in every state; `X_A` is the table's value and `X_PIX` the white pixel word that carries
it; no other port and no state of the block changes. -/
def Obligations.ExpandRuns : Prop :=
  ∀ (l : Level) (s : State), ∃ (t : State) (a : Byte),
    exec (.expand l) s = .next t ∧ expanderOut t.ports = a ∧
    expanderPix t.ports = (255 : Byte) ++ (255 : Byte) ++ (255 : Byte) ++ a ∧ pixelOfLevel l = ⟨255, 255, 255, a⟩ ∧
    (l = 0 → a = 0x00) ∧ (l = 1 → a = 0x40) ∧ (l = 2 → a = 0x80) ∧ (l = 3 → a = 0xFF) ∧
    t = { s with ports := { s.ports with xL := l }, replies := t.replies }

/-- R59: UNPACK4 completes in every state; `U_L0` to `U_L3` are the four bit pairs of `b`, first pair first; packing them
again gives `b`, and unpacking what PACK4 packed gives the levels; no other port and no state of the block changes. -/
def Obligations.Unpack4Runs : Prop :=
  (∀ ls : Levels, unpack4 (pack4 ls) = ls) ∧
  ∀ (b : Byte) (s : State), ∃ (t : State) (ls : Levels),
    exec (.unpack4 b) s = .next t ∧ unpackerOut t.ports = ls ∧
    ls.l0.toNat = b.toNat / 64 % 4 ∧ ls.l1.toNat = b.toNat / 16 % 4 ∧ ls.l2.toNat = b.toNat / 4 % 4 ∧
    ls.l3.toNat = b.toNat % 4 ∧ pack4 ls = b ∧
    t = { s with ports := { s.ports with uB := b }, replies := t.replies }

/-- R47 (the part after `->`), R42; the list of what the host has been told is the model's choice (notes/assumptions/5.md):
each unit operation appends what its output port then carries, whatever the state. -/
def Obligations.UnitResultsAreReturned : Prop :=
  ∀ (s : State) (a b : Byte) (l l0 l1 l2 l3 : Level),
    (∃ t, exec (.classify a) s = .next t ∧ t.replies = s.replies ++ [.level (quantizerOut t.ports)]) ∧
    (∃ t, exec (.pack4 l0 l1 l2 l3) s = .next t ∧ t.replies = s.replies ++ [.packed (packerOut t.ports)]) ∧
    (∃ t, exec (.expand l) s = .next t ∧
      t.replies = s.replies ++ [.alpha (expanderOut t.ports) (expanderPix t.ports)]) ∧
    ∃ t, exec (.unpack4 b) s = .next t ∧ t.replies = s.replies ++ [.levels (unpackerOut t.ports)]

/-- R49 (a), (b), (c), (f): CLASSIFY is monotonic, counts the thresholds reached, has the two-comparator bit form, is
onto, and is stable under the expander. -/
def Obligations.ClassifyProperties : Prop :=
  (∀ a b : Byte, a.toNat ≤ b.toNat → (classify a).toNat ≤ (classify b).toNat) ∧
  (∀ a : Byte, (classify a).toNat
    = (if 1 ≤ a.toNat then 1 else 0) + (if 85 ≤ a.toNat then 1 else 0) + (if 170 ≤ a.toNat then 1 else 0)) ∧
  (∀ a : Byte, (classify a).getLsbD 1 = decide (85 ≤ a.toNat) ∧
    (classify a).getLsbD 0 = (decide (170 ≤ a.toNat) || (decide (1 ≤ a.toNat) && decide (a.toNat < 85)))) ∧
  (∀ l : Level, ∃ a : Byte, classify a = l) ∧ ∀ l : Level, classify (expand l) = l

/-- R58: the bit form of EXPAND; it inverts CLASSIFY at exactly 0, 64, 128 and 255; it is a right inverse on levels; the
round trip is idempotent; and no order relation with the original alpha holds. -/
def Obligations.ExpandProperties : Prop :=
  (∀ l : Level, (expand l).getLsbD 7 = l.getLsbD 1 ∧ (expand l).getLsbD 6 = l.getLsbD 0 ∧
    ∀ i, i < 6 → (expand l).getLsbD i = (l.getLsbD 1 && l.getLsbD 0)) ∧
  (∀ a : Byte, expand (classify a) = a ↔ a = 0 ∨ a = 64 ∨ a = 128 ∨ a = 255) ∧
  (∀ l : Level, classify (expand l) = l) ∧
  (∀ a : Byte, expand (classify (expand (classify a))) = expand (classify a)) ∧
  expand (classify 1) = 64 ∧ expand (classify 84) = 64 ∧ expand (classify 169) = 128 ∧ expand (classify 170) = 255

/-- R22, R42: no step but the driving of a port changes what the ports carry, so every output port holds its value. -/
def Obligations.OnlyDrivingChangesPorts : Prop :=
  ∀ s t : State, step s = .next t → (∀ p w rest, s.hostIn ≠ .drive p w :: rest) →
    t.ports = s.ports ∧ quantizerOut t.ports = quantizerOut s.ports ∧ packerOut t.ports = packerOut s.ports ∧
    expanderOut t.ports = expanderOut s.ports ∧ unpackerOut t.ports = unpackerOut s.ports

/-- R42: "driving a port never disturbs a command": ENCODE and DECODE do the same whatever the ports carry. -/
def Obligations.PortsNeverDisturbACommand : Prop :=
  ∀ (c : Canvas) (s : State) (p : Ports),
    encodeOn c { s with ports := p } = { encodeOn c s with ports := p } ∧
    decodeOn c { s with ports := p } = { decodeOn c s with ports := p }

/-! ### ENCODE -/

/-- R53, R54 (first form), R71: with the canvas declared, ENCODE completes without error: every byte of `STRM` is the
group byte of its index, `SLEN = N = 19200`, and nothing else changes but `STATUS`. -/
def Obligations.EncodeCompletes : Prop :=
  ∀ s : State, State.Inv Config.canvas s → s.busy = false → s.rw = 320 → s.rh = 240 →
    ∃ t, exec .encode s = .next t ∧ t.status = 0x02 ∧ t.slen = 19200 ∧ t.seq = none ∧
      (∀ k, k < 19200 → t.byteAt k = encGroup Config.canvas s (4 * (k % 80)) (k / 80)) ∧
      t = { s with strm := t.strm, slen := t.slen, status := t.status, seq := none }

/-- R54, R45 (encoder side): over every canvas, after a successful ENCODE every byte is the group byte of its index, the
lane of every pixel is the class of its alpha, every lane at or beyond `W` is 0, and all `N` bytes have been written. -/
def Obligations.EncodeLanesOnEveryCanvas : Prop :=
  ∀ (c : Canvas) (s : State), Memory.wf c.N s.strm = true → s.rw.toNat = c.W → s.rh.toNat = c.H →
    (∀ k, k < c.N → (encodeOn c s).byteAt k = encGroup c s (4 * (k % c.G)) (k / c.G)) ∧
    (∀ x y, x < c.W → y < c.H →
      lane ((encodeOn c s).byteAt (y * c.G + x / 4)) (x % 4) = classify (s.pixelAt c x y).a) ∧
    (∀ x y, c.W ≤ x → x < 4 * c.G → y < c.H → lane ((encodeOn c s).byteAt (y * c.G + x / 4)) (x % 4) = 0) ∧
    (∀ k, k < c.N → (Memory.lookup (encodeOn c s).strm k).isSome = true) ∧
    (encodeOn c s).slen.toNat = c.N ∧ (encodeOn c s).status = 0x02

/-- R65: a declared shape that is not the canvas ends ENCODE in ShapeError, code 1, with nothing read or written. -/
def Obligations.EncodeShapeError : Prop :=
  (∀ (c : Canvas) (s : State), s.rw.toNat ≠ c.W ∨ s.rh.toNat ≠ c.H →
    encodeOn c s = { s with status := 0x06, seq := none }) ∧
  ∀ s : State, s.busy = false → s.rw ≠ 320 ∨ s.rh ≠ 240 →
    exec .encode s = .next { s with status := 0x06, seq := none }

/-- R53 (corner cases), R49 (d): the stream an ENCODE leaves depends on the alpha of every pixel and on nothing else: not
on the colour, the earlier stream, `SLEN`, the ports or `STATUS`. -/
def Obligations.EncodeDependsOnAlphaOnly : Prop :=
  ∀ (c : Canvas) (s t : State), Memory.wf c.N s.strm = true → Memory.wf c.N t.strm = true →
    s.rw.toNat = c.W → s.rh.toNat = c.H → t.rw = s.rw → t.rh = s.rh →
    (∀ x y, x < c.W → y < c.H → (t.pixelAt c x y).a = (s.pixelAt c x y).a) →
    ∀ k, k < c.N → (encodeOn c t).byteAt k = (encodeOn c s).byteAt k

/-- R55: an all-opaque raster encodes to 0xFF bytes and an all-transparent one to zero bytes where no row is short, and at
a width two beyond a multiple of four the last byte of every row has its low four bits 0. -/
def Obligations.UniformRastersAndPadding : Prop :=
  ∀ (c : Canvas) (s : State), Memory.wf c.N s.strm = true → s.rw.toNat = c.W → s.rh.toNat = c.H →
    (c.W % 4 = 0 → (∀ x y, x < c.W → y < c.H → (s.pixelAt c x y).a = 255) →
      ∀ k, k < c.N → (encodeOn c s).byteAt k = 0xFF) ∧
    ((∀ x y, x < c.W → y < c.H → (s.pixelAt c x y).a = 0) → ∀ k, k < c.N → (encodeOn c s).byteAt k = 0x00) ∧
    (c.W % 4 = 2 → ∀ y, y < c.H → (encodeOn c s).byteAt (y * c.G + (c.G - 1)) &&& 0x0F = 0)

/-- R77, R24: once the host has written every pixel since the last reset, the free values of unwritten elements (U6;
notes/assumptions/1.md) have no part in what ENCODE writes. -/
def Obligations.WrittenRasterFixesStream : Prop :=
  ∀ (c : Canvas) (s : State) (e : Nat), Memory.wf c.N s.strm = true → State.RasterWritten c s →
    s.rw.toNat = c.W → s.rh.toNat = c.H →
    ∀ k, k < c.N → (encodeOn c { s with epoch := e }).byteAt k = (encodeOn c s).byteAt k

/-! ### DECODE -/

/-- R60, R61, R71: with the stream length declared, DECODE completes without error: every pixel is white with the alpha
of its lane, `(RW, RH) = (320, 240)`, and nothing else changes but `STATUS`. -/
def Obligations.DecodeCompletes : Prop :=
  ∀ s : State, State.Inv Config.canvas s → s.busy = false → s.slen = 19200 →
    ∃ t, exec .decode s = .next t ∧ t.status = 0x02 ∧ t.rw = 320 ∧ t.rh = 240 ∧ t.seq = none ∧
      (∀ x y, x < 320 → y < 240 →
        t.pixelAt Config.canvas x y = ⟨255, 255, 255, expand (lane (s.byteAt (y * 80 + x / 4)) (x % 4))⟩) ∧
      t = { s with rast := t.rast, rw := t.rw, rh := t.rh, status := t.status, seq := none }

/-- R61, R62: over every canvas a successful DECODE writes every pixel, and each is white with the alpha of its lane. -/
def Obligations.DecodePixelsOnEveryCanvas : Prop :=
  ∀ (c : Canvas) (s : State), Memory.wf (c.W * c.H) s.rast = true → s.slen.toNat = c.N →
    (∀ x y, x < c.W → y < c.H → (decodeOn c s).pixelAt c x y
      = ⟨255, 255, 255, expand (lane (s.byteAt (y * c.G + x / 4)) (x % 4))⟩) ∧
    (∀ x y, x < c.W → y < c.H → (Memory.lookup (decodeOn c s).rast (pixelIndex c x y)).isSome = true) ∧
    (decodeOn c s).rw.toNat = c.W ∧ (decodeOn c s).rh.toNat = c.H ∧ (decodeOn c s).status = 0x02

/-- R66: a declared length that is not `N = ceil(W / 4) * H` ends DECODE in LengthError, code 2, with nothing read or
written. -/
def Obligations.DecodeLengthError : Prop :=
  (∀ (c : Canvas) (s : State), s.slen.toNat ≠ (c.W + 3) / 4 * c.H →
    decodeOn c s = { s with status := 0x0A, seq := none }) ∧
  ∀ s : State, s.busy = false → s.slen ≠ 19200 → exec .decode s = .next { s with status := 0x0A, seq := none }

/-- R45 (decoder side), R60: a DECODE depends on the lanes that carry pixels and on nothing else: streams that differ in
padding lanes only, over any earlier raster, decode to the same pixels without error. -/
def Obligations.DecodeIgnoresPadding : Prop :=
  ∀ (c : Canvas) (s t : State), Memory.wf (c.W * c.H) s.rast = true → Memory.wf (c.W * c.H) t.rast = true →
    s.slen.toNat = c.N → t.slen = s.slen →
    (∀ x y, x < c.W → y < c.H →
      lane (t.byteAt (byteIndex c x y)) (x % 4) = lane (s.byteAt (byteIndex c x y)) (x % 4)) →
    (decodeOn c t).status = 0x02 ∧
    ∀ x y, x < c.W → y < c.H → (decodeOn c t).pixelAt c x y = (decodeOn c s).pixelAt c x y

/-- R77, R24: once the host has written every byte since the last reset, the free values have no part in what DECODE
writes. -/
def Obligations.WrittenStreamFixesRaster : Prop :=
  ∀ (c : Canvas) (s : State) (e : Nat), Memory.wf (c.W * c.H) s.rast = true → State.StreamWritten c s →
    s.slen.toNat = c.N →
    ∀ x y, x < c.W → y < c.H → (decodeOn c { s with epoch := e }).pixelAt c x y = (decodeOn c s).pixelAt c x y

/-! ### Round trips -/

/-- R63, first direction: ENCODE then DECODE succeeds, loses the colour, replaces each alpha by its class's table value
and keeps each level. -/
def Obligations.EncodeThenDecode : Prop :=
  ∀ (c : Canvas) (s : State), State.Inv c s → s.rw.toNat = c.W → s.rh.toNat = c.H →
    (decodeOn c (encodeOn c s)).status = 0x02 ∧
    ∀ x y, x < c.W → y < c.H →
      (decodeOn c (encodeOn c s)).pixelAt c x y = ⟨255, 255, 255, expand (classify (s.pixelAt c x y).a)⟩ ∧
      classify ((decodeOn c (encodeOn c s)).pixelAt c x y).a = classify (s.pixelAt c x y).a

/-- R63, second direction: DECODE then ENCODE succeeds and restores every lane that carries a pixel; the padding lanes
become 0; so the whole stream is restored when `W` is a multiple of 4. -/
def Obligations.DecodeThenEncode : Prop :=
  ∀ (c : Canvas) (s : State), State.Inv c s → s.slen.toNat = c.N →
    (encodeOn c (decodeOn c s)).status = 0x02 ∧
    (∀ x y, x < 4 * c.G → y < c.H → lane ((encodeOn c (decodeOn c s)).byteAt (y * c.G + x / 4)) (x % 4)
      = if x < c.W then lane (s.byteAt (y * c.G + x / 4)) (x % 4) else 0) ∧
    (c.W % 4 = 0 → ∀ k, k < c.N → (encodeOn c (decodeOn c s)).byteAt k = s.byteAt k)

/-! ### The sequencer -/

/-- R20: after `n` steps of a running command the counters stand at group `n`: `CUR = n`, `Y = n / G`, `X = 4 * (n mod G)`,
so `CUR = Y * G + X / 4`; the command is still running. -/
def Obligations.SequencerFollowsTheScan : Prop :=
  ∀ (c : Canvas) (e : Engine) (s : State) (n : Nat), n ≤ c.N →
    ∃ q, (runEngine c n (s.issue e)).seq = some q ∧ q.engine = e ∧ q.cur.toNat = n ∧ q.y.toNat = n / c.G ∧
      q.x.toNat = 4 * (n % c.G) ∧ q.cur.toNat = q.y.toNat * c.G + q.x.toNat / 4 ∧
      (runEngine c n (s.issue e)).busy = true

/-- R83, R71: a command whose check passed takes exactly `N` group steps and then completes: it is running after each of
the first `N` and not after the next. -/
def Obligations.CommandTakesExactlyNGroupSteps : Prop :=
  ∀ (c : Canvas) (e : Engine) (s : State),
    (∀ n, n ≤ c.N → (runEngine c n (s.issue e)).busy = true ∧ (runEngine c n (s.issue e)).seq.isSome = true) ∧
    (runEngine c (c.N + 1) (s.issue e)).status = 0x02 ∧ (runEngine c (c.N + 1) (s.issue e)).seq = none

/-- R20, R31, R60: one group step of ENCODE writes `STRM[CUR]` with the byte of its group, and no other byte and no pixel;
one group step of DECODE writes every pixel of the group of `STRM[CUR]` with the white pixel of its lane, and no other
pixel and no byte. -/
def Obligations.GroupStepWritesItsGroupOnly : Prop :=
  ∀ (c : Canvas) (s : State) (q : Sequencer), State.Inv c s → s.seq = some q → q.y.toNat < c.H →
    (∀ k, k ≠ q.cur.toNat → (encodeGroup c q s).byteAt k = s.byteAt k) ∧ (encodeGroup c q s).rast = s.rast ∧
    (encodeGroup c q s).byteAt q.cur.toNat = encGroup c s q.x.toNat q.y.toNat ∧
    (decodeGroup c q s).strm = s.strm ∧
    (∀ x y, x < c.W → y < c.H → byteIndex c x y = q.cur.toNat →
      (decodeGroup c q s).pixelAt c x y = pixelOfLevel (lane (s.byteAt q.cur.toNat) (x % 4))) ∧
    ∀ x y, x < c.W → y < c.H → byteIndex c x y ≠ q.cur.toNat →
      (decodeGroup c q s).pixelAt c x y = s.pixelAt c x y

/-- R21, R80: the group buffer is set anew at every group step of either engine: what it held has no part in the step;
and in ENCODE every entry at or beyond `W` is 0. -/
def Obligations.GroupBufferIsCleared : Prop :=
  ∀ (c : Canvas) (q : Sequencer) (g : Levels) (s : State),
    encodeGroup c { q with gbuf := g } s = encodeGroup c q s ∧
    decodeGroup c { q with gbuf := g } s = decodeGroup c q s ∧
    ∀ i, i < 4 → c.W ≤ q.x.toNat + i → laneOf (loadGroup c s q.x.toNat q.y.toNat) i = 0

/-- R6, R20, D3: the atomic command and the stepwise engine are one: from the state the write to `CMD` issues, `N + 1`
steps of the machine with no host action between them end where ENCODE, or DECODE, ends at once. -/
def Obligations.AtomicCommandIsTheRunOfTheEngine : Prop :=
  ∀ s : State, s.hostIn = [] →
    (s.rw = 320 → s.rh = 240 →
      Host.Core.run core 19201 (s.issue .encoder) = .next (encodeOn Config.canvas s)) ∧
    (s.slen = 19200 → Host.Core.run core 19201 (s.issue .decoder) = .next (decodeOn Config.canvas s))

/-! ### Errors and the end of a command -/

/-- R44, R67: a write of a reserved code to `CMD` completes at once with IllegalCommand; neither buffer and no descriptor
changes. (The host's write is the head of `hostIn`: notes/assumptions/5.md.) -/
def Obligations.ReservedCodeIsIllegalCommand : Prop :=
  ∀ (s : State) (code : Byte) (rest : List HostAction), s.busy = false →
    s.hostIn = .writeReg 0 (code.setWidth 32) :: rest → code ≠ 0x01 → code ≠ 0x02 →
    step s = .next { s with hostIn := rest, status := 0x0E, seq := none }

/-- R70: the one shared operation of raising an error: `BUSY = 0`, `DONE = 1`, `ERR` the code of R64, and every buffer and
descriptor as it was. -/
def Obligations.RaiseChangesStatusOnly : Prop :=
  ∀ (s : State) (e : Err),
    (s.raise e).busy = false ∧ (s.raise e).done = true ∧
    (s.raise e).err = (match e with | .none => 0 | .shape => 1 | .length => 2 | .illegal => 3) ∧
    (s.raise e).statusRead = (s.raise e).status ∧
    s.raise e = { s with status := (s.raise e).status, seq := none }

/-- R84, R71: a frame command issued while none runs ends in exactly one of the two ways: a good end, or an error end with
ShapeError (ENCODE) or LengthError (DECODE). -/
def Obligations.EveryCommandEndsGoodOrInError : Prop :=
  ∀ s : State, State.Inv Config.canvas s → s.busy = false →
    (∃ t, exec .encode s = .next t ∧
      ((s.rw = 320 ∧ s.rh = 240 ∧ GoodEncodeEnd Config.canvas s t) ∨
       (¬(s.rw = 320 ∧ s.rh = 240) ∧ ErrorEnd s t .shape))) ∧
    ∃ t, exec .decode s = .next t ∧
      ((s.slen = 19200 ∧ GoodDecodeEnd Config.canvas s t) ∨ (s.slen ≠ 19200 ∧ ErrorEnd s t .length))

/-- R69: ENCODE does not look at `SLEN` and DECODE does not look at `RW` or `RH`: whatever those hold, the outcome is the
same, and a success overwrites them. -/
def Obligations.EachCommandMakesItsOneCheck : Prop :=
  ∀ (c : Canvas) (s : State) (n : BitVec 32) (w h : BitVec 16),
    (encodeOn c { s with slen := n }).status = (encodeOn c s).status ∧
    (encodeOn c { s with slen := n }).strm = (encodeOn c s).strm ∧
    (shapeOk c s = true → (encodeOn c { s with slen := n }).slen.toNat = c.N) ∧
    (decodeOn c { s with rw := w, rh := h }).status = (decodeOn c s).status ∧
    (decodeOn c { s with rw := w, rh := h }).rast = (decodeOn c s).rast ∧
    (lengthOk c s = true → (decodeOn c { s with rw := w, rh := h }).rw.toNat = c.W ∧
      (decodeOn c { s with rw := w, rh := h }).rh.toNat = c.H)

/-- R72: an error leaves no trace: what a command does depends in no way on the `STATUS` it finds. -/
def Obligations.ErrorsLeaveNoTrace : Prop :=
  ∀ (c : Canvas) (s : State) (v : BitVec 8),
    encodeOn c { s with status := v } = encodeOn c s ∧ decodeOn c { s with status := v } = decodeOn c s

/-! ### The host's side -/

/-- R43, R42: when the host's next action writes a command code or drives a port with bits that decode to `i`, the step is
exec of `i` on the state without that action (while `BUSY = 1` for a driven port too). -/
def Obligations.StepRunsTheDecodedInstruction : Prop :=
  (∀ (s : State) (code : Byte) (rest : List HostAction) (i : Instr), s.busy = false →
    s.hostIn = .writeReg 0 (code.setWidth 32) :: rest → decode .cmd code = .ok i →
    step s = exec i { s with hostIn := rest }) ∧
  (∀ (s : State) (p : UnitPort) (w : Byte) (rest : List HostAction) (i : Instr),
    s.hostIn = .drive p w :: rest → decode (.port p) w = .ok i → step s = exec i { s with hostIn := rest }) ∧
  ∀ (s : State) (code : Byte), s.busy = false → ∀ i, decode .cmd code = .ok i →
    step (s.withFetchWord 8 code.toNat) = exec i s

/-- R16, R17, R18: a host read of a register returns its value and changes nothing: `CMD` reads 0, the reserved bits of
`STATUS` read 0, a number above 4 names no register. -/
def Obligations.RegisterReads : Prop :=
  ∀ (s : State) (n : Nat) (rest : List HostAction), s.busy = false → s.hostIn = .readReg n :: rest →
    (n = 0 → step s = .next { s with hostIn := rest, replies := s.replies ++ [.register 0 0] }) ∧
    (n = 1 → ∃ v : BitVec 32, step s = .next { s with hostIn := rest, replies := s.replies ++ [.register 1 v] } ∧
      v.getLsbD 0 = s.busy ∧ v.getLsbD 1 = s.done ∧ v.extractLsb' 2 2 = s.err ∧ v.extractLsb' 4 28 = 0) ∧
    (n = 2 → step s = .next { s with hostIn := rest, replies := s.replies ++ [.register 2 (s.rw.setWidth 32)] }) ∧
    (n = 3 → step s = .next { s with hostIn := rest, replies := s.replies ++ [.register 3 (s.rh.setWidth 32)] }) ∧
    (n = 4 → step s = .next { s with hostIn := rest, replies := s.replies ++ [.register 4 s.slen] }) ∧
    (4 < n → step s = .refused .noSuchLocation)

/-- R16, R18, R13, R15: a host write to `STATUS` is ignored, a write to a descriptor stores the value at the register's own
width, and a number above 4 names no register. -/
def Obligations.RegisterWrites : Prop :=
  ∀ (s : State) (rest : List HostAction), s.busy = false →
    (∀ v : BitVec 8, s.hostIn = .writeReg 1 (v.setWidth 32) :: rest → step s = .next { s with hostIn := rest }) ∧
    (∀ v : BitVec 16, s.hostIn = .writeReg 2 (v.setWidth 32) :: rest →
      step s = .next { s with hostIn := rest, rw := v }) ∧
    (∀ v : BitVec 16, s.hostIn = .writeReg 3 (v.setWidth 32) :: rest →
      step s = .next { s with hostIn := rest, rh := v }) ∧
    (∀ v : BitVec 32, s.hostIn = .writeReg 4 v :: rest → step s = .next { s with hostIn := rest, slen := v }) ∧
    ∀ (n : Nat) (v : BitVec 32), 4 < n → s.hostIn = .writeReg n v :: rest → step s = .refused .noSuchLocation

/-- R25, R31, R35: between commands a host write of one element is what every later read of it returns, and every other
element of both buffers reads as before; the other state is unchanged. -/
def Obligations.HostWriteThenRead : Prop :=
  ∀ (s : State) (rest : List HostAction), State.Inv Config.canvas s → s.busy = false →
    (∀ (k : Nat) (v : Byte), k < 19200 → s.hostIn = .writeByte k v :: rest →
      ∃ t, step s = .next t ∧ t.byteAt k = v ∧ (∀ j, j ≠ k → t.byteAt j = s.byteAt j) ∧
        t = { s with strm := t.strm, hostIn := rest }) ∧
    ∀ (x y : Nat) (p : Pixel), x < 320 → y < 240 → s.hostIn = .writePixel x y p :: rest →
      ∃ t, step s = .next t ∧ t.pixelAt Config.canvas x y = p ∧
        (∀ x' y', x' < 320 → y' < 240 → (x' ≠ x ∨ y' ≠ y) →
          t.pixelAt Config.canvas x' y' = s.pixelAt Config.canvas x' y') ∧
        t = { s with rast := t.rast, hostIn := rest }

/-- R32: a host read of a buffer element returns its value and changes nothing. -/
def Obligations.HostReadsHaveNoSideEffect : Prop :=
  ∀ (s : State) (rest : List HostAction), s.busy = false →
    (∀ k, k < 19200 → s.hostIn = .readByte k :: rest →
      step s = .next { s with hostIn := rest, replies := s.replies ++ [.byte (s.byteAt k)] }) ∧
    ∀ x y, x < 320 → y < 240 → s.hostIn = .readPixel x y :: rest →
      step s = .next { s with hostIn := rest,
                              replies := s.replies ++ [.pixel (s.pixelAt Config.canvas x y)] }

/-- R34: a host access to an element outside the index ranges of R25 is refused by name. -/
def Obligations.OutOfRangeAccessIsRefused : Prop :=
  ∀ (s : State) (rest : List HostAction), s.busy = false →
    (∀ k v, 19200 ≤ k → s.hostIn = .writeByte k v :: rest → step s = .refused .noSuchLocation) ∧
    (∀ k, 19200 ≤ k → s.hostIn = .readByte k :: rest → step s = .refused .noSuchLocation) ∧
    (∀ x y p, 320 ≤ x ∨ 240 ≤ y → s.hostIn = .writePixel x y p :: rest → step s = .refused .noSuchLocation) ∧
    ∀ x y, 320 ≤ x ∨ 240 ≤ y → s.hostIn = .readPixel x y :: rest → step s = .refused .noSuchLocation

/-- R38, U5: while a command runs the model gives no meaning to an access of `RAST`, `STRM`, `RW`, `RH`, `SLEN` or `CMD`,
and `STATUS` may be read, with `BUSY = 1`. That a write of `STATUS` (register 1) has no meaning then either is the
MODEL'S CHOICE (notes/assumptions/7.md): R38 and U5 do not list it and R18 calls such a write ignored, while R78 ("`RD
STATUS` only") and D19 ("Forbidden except reading `STATUS`") allow nothing else. For an index or
a register number that names no location, the name of the refusal is the model's choice too. -/
def Obligations.AccessWhileBusy : Prop :=
  ∀ (s : State) (a : HostAction) (rest : List HostAction), s.busy = true → s.hostIn = a :: rest →
    ((∃ k v, a = .writeByte k v) ∨ (∃ k, a = .readByte k) ∨ (∃ x y p, a = .writePixel x y p) ∨
      (∃ x y, a = .readPixel x y) ∨ (∃ n v, a = .writeReg n v) ∨ (∃ n, n ≠ 1 ∧ a = .readReg n) →
      step s = .refused .accessWhileBusy) ∧
    (a = .readReg 1 → ∃ v : BitVec 32,
      step s = .next { s with hostIn := rest, replies := s.replies ++ [.register 1 v] } ∧ v.getLsbD 0 = true) ∧
    exec .encode s = .refused .accessWhileBusy ∧ exec .decode s = .refused .accessWhileBusy

/-- R76, R24: a reset, at any time and inside a command too, leaves `STATUS`, the descriptors and the sequencer as R24
says and both buffers with nothing written; what the host drives and has been told is not the block's (R76: "The four
units have no state and are unaffected by reset"). The new epoch is the model's (notes/assumptions/1.md). -/
def Obligations.ResetFromAnyState : Prop :=
  ∀ (s : State) (rest : List HostAction), s.hostIn = .reset :: rest →
    step s = .next { rast := [], strm := [], rw := 0, rh := 0, slen := 0, status := 0, seq := none,
                     ports := s.ports, epoch := s.epoch + 1, hostIn := rest, replies := s.replies }

/-- R24: the values the spec gives for reset, in `State.reset`; an ENCODE issued then ends in ShapeError and a DECODE in
LengthError, with the buffers untouched. -/
def Obligations.ResetState : Prop :=
  State.reset.busy = false ∧ State.reset.done = false ∧ State.reset.err = 0 ∧
  State.reset.status.extractLsb' 4 4 = 0 ∧ State.reset.regRead 0 = some 0 ∧ State.reset.rw = 0 ∧
  State.reset.rh = 0 ∧ State.reset.slen = 0 ∧ State.reset.seq = none ∧
  exec .encode State.reset = .next { State.reset with status := 0x06 } ∧
  exec .decode State.reset = .next { State.reset with status := 0x0A }

/-- R76: with no command running and no action of the host the block waits: nothing changes. -/
def Obligations.WaitsForTheHost : Prop :=
  ∀ s : State, s.hostIn = [] → s.seq = none → step s = .next s

/-! ### Whole-machine rules -/

/-- R11, R14, R18, 10_state.md sections 2 and 3: what a step may change. With no command running, `STATUS` changes only by
a write to `CMD` or a reset; `STRM` only by a host write of a byte, an ENCODE or a reset; `RAST` only by a host write of a
pixel, a DECODE or a reset. -/
def Obligations.OnlyTheseEventsWrite : Prop :=
  ∀ s t : State, s.seq = none → step s = .next t →
    (t.status ≠ s.status → ∃ rest, (∃ v, s.hostIn = .writeReg 0 v :: rest) ∨ s.hostIn = .reset :: rest) ∧
    (t.strm ≠ s.strm → ∃ rest, (∃ k v, s.hostIn = .writeByte k v :: rest) ∨
      s.hostIn = .writeReg 0 0x01 :: rest ∨ s.hostIn = .reset :: rest) ∧
    (t.rast ≠ s.rast → ∃ rest, (∃ x y p, s.hostIn = .writePixel x y p :: rest) ∨
      s.hostIn = .writeReg 0 0x02 :: rest ∨ s.hostIn = .reset :: rest)

/-- R13, R15: what a step may change in the descriptors, with no command running: `RW` and `RH` only by a host write of
the register, a DECODE or a reset; `SLEN` only by a host write of it, an ENCODE or a reset. -/
def Obligations.OnlyTheseEventsWriteDescriptors : Prop :=
  ∀ s t : State, s.seq = none → step s = .next t →
    (t.rw ≠ s.rw → ∃ rest, (∃ v, s.hostIn = .writeReg 2 v :: rest) ∨ s.hostIn = .writeReg 0 0x02 :: rest ∨
      s.hostIn = .reset :: rest) ∧
    (t.rh ≠ s.rh → ∃ rest, (∃ v, s.hostIn = .writeReg 3 v :: rest) ∨ s.hostIn = .writeReg 0 0x02 :: rest ∨
      s.hostIn = .reset :: rest) ∧
    (t.slen ≠ s.slen → ∃ rest, (∃ v, s.hostIn = .writeReg 4 v :: rest) ∨ s.hostIn = .writeReg 0 0x01 :: rest ∨
      s.hostIn = .reset :: rest)

/-- R18, R6: "the host therefore never reads `BUSY = 1`": from a state of the block with no command running, every step
leaves no command running. -/
def Obligations.NoCommandIsLeftRunning : Prop :=
  ∀ s t : State, State.Settled s → step s = .next t → State.Settled t

/-- The reset state has the shape every state of the block has. -/
def Obligations.InvariantAtReset : Prop := State.Inv Config.canvas State.reset

/-- R11, R14, R18, R20: every step keeps the shape every state of the block has: both buffers in canonical form inside
their index ranges, `STATUS` one of its legal values, a sequencer exactly while `BUSY = 1`, its counters at a group. -/
def Obligations.EveryStepKeepsTheInvariant : Prop :=
  ∀ s t : State, State.Inv Config.canvas s → step s = .next t → State.Inv Config.canvas t

/-- R34, R71: a block in a state of that shape never faults: "A frame command never forms an index outside" the ranges. -/
def Obligations.NoStepFaults : Prop :=
  ∀ (s : State) (f : Fault), State.Inv Config.canvas s → step s ≠ .fault f
end

