-- ==== Sys2Proof/Laws/State.lean ====
section
/-!
SUPPORT. What every named update of the state leaves in every field: one lemma per field and update.
-/

namespace Sys2Proof.Machine

variable (s : State)

@[simp] theorem State.setByte_rast (k : Nat) (v : Byte) : (s.setByte k v).rast = s.rast := rfl
@[simp] theorem State.setByte_strm (k : Nat) (v : Byte) : (s.setByte k v).strm = Memory.write s.strm k v := rfl
@[simp] theorem State.setByte_rw (k : Nat) (v : Byte) : (s.setByte k v).rw = s.rw := rfl
@[simp] theorem State.setByte_rh (k : Nat) (v : Byte) : (s.setByte k v).rh = s.rh := rfl
@[simp] theorem State.setByte_slen (k : Nat) (v : Byte) : (s.setByte k v).slen = s.slen := rfl
@[simp] theorem State.setByte_status (k : Nat) (v : Byte) : (s.setByte k v).status = s.status := rfl
@[simp] theorem State.setByte_seq (k : Nat) (v : Byte) : (s.setByte k v).seq = s.seq := rfl
@[simp] theorem State.setByte_ports (k : Nat) (v : Byte) : (s.setByte k v).ports = s.ports := rfl
@[simp] theorem State.setByte_epoch (k : Nat) (v : Byte) : (s.setByte k v).epoch = s.epoch := rfl
@[simp] theorem State.setByte_hostIn (k : Nat) (v : Byte) : (s.setByte k v).hostIn = s.hostIn := rfl
@[simp] theorem State.setByte_replies (k : Nat) (v : Byte) : (s.setByte k v).replies = s.replies := rfl

@[simp] theorem State.setPixel_rast (c : Canvas) (x y : Nat) (p : Pixel) : (s.setPixel c x y p).rast = Memory.write s.rast (pixelIndex c x y) p := rfl
@[simp] theorem State.setPixel_strm (c : Canvas) (x y : Nat) (p : Pixel) : (s.setPixel c x y p).strm = s.strm := rfl
@[simp] theorem State.setPixel_rw (c : Canvas) (x y : Nat) (p : Pixel) : (s.setPixel c x y p).rw = s.rw := rfl
@[simp] theorem State.setPixel_rh (c : Canvas) (x y : Nat) (p : Pixel) : (s.setPixel c x y p).rh = s.rh := rfl
@[simp] theorem State.setPixel_slen (c : Canvas) (x y : Nat) (p : Pixel) : (s.setPixel c x y p).slen = s.slen := rfl
@[simp] theorem State.setPixel_status (c : Canvas) (x y : Nat) (p : Pixel) : (s.setPixel c x y p).status = s.status := rfl
@[simp] theorem State.setPixel_seq (c : Canvas) (x y : Nat) (p : Pixel) : (s.setPixel c x y p).seq = s.seq := rfl
@[simp] theorem State.setPixel_ports (c : Canvas) (x y : Nat) (p : Pixel) : (s.setPixel c x y p).ports = s.ports := rfl
@[simp] theorem State.setPixel_epoch (c : Canvas) (x y : Nat) (p : Pixel) : (s.setPixel c x y p).epoch = s.epoch := rfl
@[simp] theorem State.setPixel_hostIn (c : Canvas) (x y : Nat) (p : Pixel) : (s.setPixel c x y p).hostIn = s.hostIn := rfl
@[simp] theorem State.setPixel_replies (c : Canvas) (x y : Nat) (p : Pixel) : (s.setPixel c x y p).replies = s.replies := rfl

@[simp] theorem State.reply_rast (r : Reply) : (s.reply r).rast = s.rast := rfl
@[simp] theorem State.reply_strm (r : Reply) : (s.reply r).strm = s.strm := rfl
@[simp] theorem State.reply_rw (r : Reply) : (s.reply r).rw = s.rw := rfl
@[simp] theorem State.reply_rh (r : Reply) : (s.reply r).rh = s.rh := rfl
@[simp] theorem State.reply_slen (r : Reply) : (s.reply r).slen = s.slen := rfl
@[simp] theorem State.reply_status (r : Reply) : (s.reply r).status = s.status := rfl
@[simp] theorem State.reply_seq (r : Reply) : (s.reply r).seq = s.seq := rfl
@[simp] theorem State.reply_ports (r : Reply) : (s.reply r).ports = s.ports := rfl
@[simp] theorem State.reply_epoch (r : Reply) : (s.reply r).epoch = s.epoch := rfl
@[simp] theorem State.reply_hostIn (r : Reply) : (s.reply r).hostIn = s.hostIn := rfl
@[simp] theorem State.reply_replies (r : Reply) : (s.reply r).replies = s.replies ++ [r] := rfl

@[simp] theorem State.issue_rast (e : Engine) : (s.issue e).rast = s.rast := rfl
@[simp] theorem State.issue_strm (e : Engine) : (s.issue e).strm = s.strm := rfl
@[simp] theorem State.issue_rw (e : Engine) : (s.issue e).rw = s.rw := rfl
@[simp] theorem State.issue_rh (e : Engine) : (s.issue e).rh = s.rh := rfl
@[simp] theorem State.issue_slen (e : Engine) : (s.issue e).slen = s.slen := rfl
@[simp] theorem State.issue_status (e : Engine) : (s.issue e).status = statusIssued := rfl
@[simp] theorem State.issue_seq (e : Engine) : (s.issue e).seq = some (Sequencer.start e) := rfl
@[simp] theorem State.issue_ports (e : Engine) : (s.issue e).ports = s.ports := rfl
@[simp] theorem State.issue_epoch (e : Engine) : (s.issue e).epoch = s.epoch := rfl
@[simp] theorem State.issue_hostIn (e : Engine) : (s.issue e).hostIn = s.hostIn := rfl
@[simp] theorem State.issue_replies (e : Engine) : (s.issue e).replies = s.replies := rfl

@[simp] theorem State.raise_rast (e : Err) : (s.raise e).rast = s.rast := rfl
@[simp] theorem State.raise_strm (e : Err) : (s.raise e).strm = s.strm := rfl
@[simp] theorem State.raise_rw (e : Err) : (s.raise e).rw = s.rw := rfl
@[simp] theorem State.raise_rh (e : Err) : (s.raise e).rh = s.rh := rfl
@[simp] theorem State.raise_slen (e : Err) : (s.raise e).slen = s.slen := rfl
@[simp] theorem State.raise_status (e : Err) : (s.raise e).status = statusCompleted e := rfl
@[simp] theorem State.raise_seq (e : Err) : (s.raise e).seq = none := rfl
@[simp] theorem State.raise_ports (e : Err) : (s.raise e).ports = s.ports := rfl
@[simp] theorem State.raise_epoch (e : Err) : (s.raise e).epoch = s.epoch := rfl
@[simp] theorem State.raise_hostIn (e : Err) : (s.raise e).hostIn = s.hostIn := rfl
@[simp] theorem State.raise_replies (e : Err) : (s.raise e).replies = s.replies := rfl

@[simp] theorem State.complete_rast : (s.complete).rast = s.rast := rfl
@[simp] theorem State.complete_strm : (s.complete).strm = s.strm := rfl
@[simp] theorem State.complete_rw : (s.complete).rw = s.rw := rfl
@[simp] theorem State.complete_rh : (s.complete).rh = s.rh := rfl
@[simp] theorem State.complete_slen : (s.complete).slen = s.slen := rfl
@[simp] theorem State.complete_status : (s.complete).status = statusCompleted .none := rfl
@[simp] theorem State.complete_seq : (s.complete).seq = none := rfl
@[simp] theorem State.complete_ports : (s.complete).ports = s.ports := rfl
@[simp] theorem State.complete_epoch : (s.complete).epoch = s.epoch := rfl
@[simp] theorem State.complete_hostIn : (s.complete).hostIn = s.hostIn := rfl
@[simp] theorem State.complete_replies : (s.complete).replies = s.replies := rfl

@[simp] theorem State.resetBlock_rast : (s.resetBlock).rast = [] := rfl
@[simp] theorem State.resetBlock_strm : (s.resetBlock).strm = [] := rfl
@[simp] theorem State.resetBlock_rw : (s.resetBlock).rw = 0 := rfl
@[simp] theorem State.resetBlock_rh : (s.resetBlock).rh = 0 := rfl
@[simp] theorem State.resetBlock_slen : (s.resetBlock).slen = 0 := rfl
@[simp] theorem State.resetBlock_status : (s.resetBlock).status = 0 := rfl
@[simp] theorem State.resetBlock_seq : (s.resetBlock).seq = none := rfl
@[simp] theorem State.resetBlock_ports : (s.resetBlock).ports = s.ports := rfl
@[simp] theorem State.resetBlock_epoch : (s.resetBlock).epoch = s.epoch + 1 := rfl
@[simp] theorem State.resetBlock_hostIn : (s.resetBlock).hostIn = s.hostIn := rfl
@[simp] theorem State.resetBlock_replies : (s.resetBlock).replies = s.replies := rfl

@[simp] theorem State.regWrite_rast (n : Nat) (v : BitVec 32) : (s.regWrite n v).rast = s.rast := by
  unfold State.regWrite; split <;> rfl
@[simp] theorem State.regWrite_strm (n : Nat) (v : BitVec 32) : (s.regWrite n v).strm = s.strm := by
  unfold State.regWrite; split <;> rfl
@[simp] theorem State.regWrite_status (n : Nat) (v : BitVec 32) : (s.regWrite n v).status = s.status := by
  unfold State.regWrite; split <;> rfl
@[simp] theorem State.regWrite_seq (n : Nat) (v : BitVec 32) : (s.regWrite n v).seq = s.seq := by
  unfold State.regWrite; split <;> rfl
@[simp] theorem State.regWrite_ports (n : Nat) (v : BitVec 32) : (s.regWrite n v).ports = s.ports := by
  unfold State.regWrite; split <;> rfl
@[simp] theorem State.regWrite_epoch (n : Nat) (v : BitVec 32) : (s.regWrite n v).epoch = s.epoch := by
  unfold State.regWrite; split <;> rfl
@[simp] theorem State.regWrite_hostIn (n : Nat) (v : BitVec 32) : (s.regWrite n v).hostIn = s.hostIn := by
  unfold State.regWrite; split <;> rfl
@[simp] theorem State.regWrite_replies (n : Nat) (v : BitVec 32) : (s.regWrite n v).replies = s.replies := by
  unfold State.regWrite; split <;> rfl

theorem State.regWrite_rw (n : Nat) (v : BitVec 32) :
    (s.regWrite n v).rw = if n = 2 then v.setWidth 16 else s.rw := by
  unfold State.regWrite; split <;> simp_all

theorem State.regWrite_rh (n : Nat) (v : BitVec 32) :
    (s.regWrite n v).rh = if n = 3 then v.setWidth 16 else s.rh := by
  unfold State.regWrite; split <;> simp_all

theorem State.regWrite_slen (n : Nat) (v : BitVec 32) :
    (s.regWrite n v).slen = if n = 4 then v else s.slen := by
  unfold State.regWrite; split <;> simp_all

/-- A read of a stream byte depends on the stream and the epoch alone. -/
theorem State.byteAt_congr {s t : State} (hm : t.strm = s.strm) (he : t.epoch = s.epoch) (k : Nat) :
    t.byteAt k = s.byteAt k := by
  simp only [State.byteAt, hm, he]

/-- A read of a pixel depends on the raster and the epoch alone. -/
theorem State.pixelAt_congr {s t : State} (hm : t.rast = s.rast) (he : t.epoch = s.epoch) (c : Canvas) (x y : Nat) :
    t.pixelAt c x y = s.pixelAt c x y := by
  simp only [State.pixelAt, hm, he]

/-- `STATUS.BUSY` depends on `STATUS` alone. -/
theorem State.busy_congr {s t : State} (h : t.status = s.status) : t.busy = s.busy := by
  simp only [State.busy, h]

end Sys2Proof.Machine
end

