-- ==== Sys2Proof/Laws/Memory.lean ====
section
/-!
SUPPORT. The laws of the buffers: a read after a write, and that every operation on a buffer keeps its canonical
form (20_memory.md R35, 10_state.md R11, R14).
-/

namespace Sys2Proof.Machine

variable {α : Type}

@[simp] theorem Memory.lookup_nil (k : Nat) : Memory.lookup ([] : Memory α) k = none := rfl

theorem Memory.lookup_cons (j k : Nat) (v : α) (m : Memory α) :
    Memory.lookup ((j, v) :: m) k = if j = k then some v else Memory.lookup m k := rfl

/-- In a list whose indices are all at least `lo`, a smaller index is not listed. -/
theorem Memory.lookup_below {lo size k : Nat} {m : Memory α} (h : Memory.wfFrom lo size m = true) (hk : k < lo) :
    Memory.lookup m k = none := by
  induction m generalizing lo with
  | nil => rfl
  | cons e m ih =>
    obtain ⟨j, v⟩ := e
    simp only [Memory.wfFrom, Bool.and_eq_true, decide_eq_true_eq] at h
    rw [Memory.lookup_cons, if_neg (by omega), ih h.2 (by omega)]

/-- What an index reads as after a write: the written value there, what it was everywhere else. -/
theorem Memory.lookup_write {lo size : Nat} {m : Memory α} (h : Memory.wfFrom lo size m = true) (k j : Nat) (v : α) :
    Memory.lookup (Memory.write m k v) j = if k = j then some v else Memory.lookup m j := by
  induction m generalizing lo with
  | nil => simp [Memory.write, Memory.lookup_cons]
  | cons e m ih =>
    obtain ⟨i, w⟩ := e
    simp only [Memory.wfFrom, Bool.and_eq_true, decide_eq_true_eq] at h
    unfold Memory.write
    split
    · simp only [Memory.lookup_cons]
    · split
      · subst_vars
        simp only [Memory.lookup_cons]
        split <;> rfl
      · simp only [Memory.lookup_cons, ih h.2]
        split <;> split <;> first | rfl | omega

/-- Writing an index of the buffer keeps the canonical form. -/
theorem Memory.wfFrom_write {lo size k : Nat} {m : Memory α} (h : Memory.wfFrom lo size m = true) (hlo : lo ≤ k)
    (hk : k < size) (v : α) : Memory.wfFrom lo size (Memory.write m k v) = true := by
  induction m generalizing lo with
  | nil => simp [Memory.write, Memory.wfFrom, hlo, hk]
  | cons e m ih =>
    obtain ⟨i, w⟩ := e
    simp only [Memory.wfFrom, Bool.and_eq_true, decide_eq_true_eq] at h
    unfold Memory.write
    split
    · simp only [Memory.wfFrom, Bool.and_eq_true, decide_eq_true_eq]
      exact ⟨⟨hlo, hk⟩, ⟨by omega, h.1.2⟩, h.2⟩
    · split
      · subst_vars; simpa [Memory.wfFrom] using h
      · simp only [Memory.wfFrom, Bool.and_eq_true, decide_eq_true_eq]
        exact ⟨h.1, ih h.2 (by omega)⟩

/-- The canonical form is kept by a write to a location of the buffer. -/
theorem Memory.wf_write {size k : Nat} {m : Memory α} (h : Memory.wf size m = true) (hk : k < size) (v : α) :
    Memory.wf size (Memory.write m k v) = true := Memory.wfFrom_write h (Nat.zero_le k) hk v

@[simp] theorem Memory.wf_nil (size : Nat) : Memory.wf size ([] : Memory α) = true := rfl

/-- Buffers in canonical form that list the same elements are the same list. -/
theorem Memory.ext_of_wfFrom {lo size : Nat} {m n : Memory α} (hm : Memory.wfFrom lo size m = true)
    (hn : Memory.wfFrom lo size n = true) (h : ∀ k, Memory.lookup m k = Memory.lookup n k) : m = n := by
  induction m generalizing lo n with
  | nil =>
    cases n with
    | nil => rfl
    | cons e n => have := h e.1; simp [Memory.lookup_cons e.1 e.1 e.2 n] at this
  | cons e m ih =>
    cases n with
    | nil => have := h e.1; simp [Memory.lookup_cons e.1 e.1 e.2 m] at this
    | cons f n =>
      obtain ⟨i, v⟩ := e
      obtain ⟨j, w⟩ := f
      simp only [Memory.wfFrom, Bool.and_eq_true, decide_eq_true_eq] at hm hn
      have hij : i = j := by
        rcases Nat.lt_trichotomy i j with hlt | heq | hgt
        · have := h i
          rw [Memory.lookup_cons, if_pos rfl, Memory.lookup_cons, if_neg (by omega),
            Memory.lookup_below hn.2 (by omega)] at this
          simp at this
        · exact heq
        · have := h j
          rw [Memory.lookup_cons, if_neg (by omega), Memory.lookup_below hm.2 (by omega), Memory.lookup_cons,
            if_pos rfl] at this
          simp at this
      subst hij
      have hvw : v = w := by simpa [Memory.lookup_cons] using h i
      subst hvw
      refine congrArg _ (ih hm.2 hn.2 fun k => ?_)
      by_cases hk : i = k
      · subst hk; rw [Memory.lookup_below hm.2 (by omega), Memory.lookup_below hn.2 (by omega)]
      · simpa [Memory.lookup_cons, hk] using h k

/-- A position of the canvas has an index of the raster buffer. -/
theorem pixelIndex_lt {c : Canvas} {x y : Nat} (hx : x < c.W) (hy : y < c.H) :
    pixelIndex c x y < c.W * c.H := by
  unfold pixelIndex
  calc y * c.W + x < (y + 1) * c.W := by rw [Nat.add_mul]; omega
    _ ≤ c.H * c.W := Nat.mul_le_mul_right _ hy
    _ = c.W * c.H := Nat.mul_comm ..

/-- Two positions of the canvas with one index are the same position. -/
theorem pixelIndex_inj {c : Canvas} {x y x' y' : Nat} (hx : x < c.W) (hx' : x' < c.W)
    (h : pixelIndex c x y = pixelIndex c x' y') : x = x' ∧ y = y' := by
  unfold pixelIndex at h
  have hy : y = y' := by
    have := congrArg (· / c.W) h
    simpa [Nat.mul_comm _ c.W, Nat.mul_add_div (by omega : 0 < c.W), Nat.div_eq_of_lt hx, Nat.div_eq_of_lt hx'] using this
  subst hy
  exact ⟨by omega, rfl⟩

/-- `STRM[j]` after `STRM[k] <- v`. -/
theorem State.byteAt_setByte {size : Nat} {s : State} (h : Memory.wf size s.strm = true) (k j : Nat) (v : Byte) :
    (s.setByte k v).byteAt j = if k = j then v else s.byteAt j := by
  simp only [State.byteAt, State.setByte, Memory.lookup_write h]
  split <;> rfl

/-- `RAST[y'][x']` after `RAST[y][x] <- p`. -/
theorem State.pixelAt_setPixel {c : Canvas} {s : State} (h : Memory.wf (c.W * c.H) s.rast = true) {x y x' y' : Nat}
    (hx : x < c.W) (hx' : x' < c.W) (p : Pixel) :
    (s.setPixel c x y p).pixelAt c x' y' = if x = x' ∧ y = y' then p else s.pixelAt c x' y' := by
  simp only [State.pixelAt, State.setPixel, Memory.lookup_write h]
  by_cases hp : pixelIndex c x y = pixelIndex c x' y'
  · rw [if_pos hp, if_pos (pixelIndex_inj hx hx' hp)]; rfl
  · rw [if_neg hp, if_neg (by rintro ⟨rfl, rfl⟩; exact hp rfl)]

/-- The reset state's buffers have the canonical form. -/
theorem State.reset_wf (c : Canvas) :
    Memory.wf (c.W * c.H) State.reset.rast = true ∧ Memory.wf c.N State.reset.strm = true := ⟨rfl, rfl⟩

end Sys2Proof.Machine
end

