-- ==== Sys2Proof/Laws/Status.lean ====
section
/-!
SUPPORT. The fields of `STATUS` after each of its writes (10_state.md R18).
-/

namespace Sys2Proof.Machine

/-- `STATUS` while a command runs, as a number. -/
theorem statusIssued_eq : statusIssued = 0x01 := by decide

/-- `STATUS` after a command, as the numbers of 95_test_vectors.md. -/
theorem statusCompleted_eq : statusCompleted .none = 0x02 ∧ statusCompleted .shape = 0x06 ∧
    statusCompleted .length = 0x0A ∧ statusCompleted .illegal = 0x0E := by decide

@[simp] theorem statusIssued_busy : statusIssued.getLsbD 0 = true := by decide

@[simp] theorem statusIssued_done : statusIssued.getLsbD 1 = false := by decide

@[simp] theorem statusCompleted_busy (e : Err) : (statusCompleted e).getLsbD 0 = false := by
  cases e <;> decide

@[simp] theorem statusCompleted_done (e : Err) : (statusCompleted e).getLsbD 1 = true := by
  cases e <;> decide

@[simp] theorem statusCompleted_err (e : Err) : (statusCompleted e).extractLsb' 2 2 = errCode e := by
  cases e <;> decide

@[simp] theorem State.issue_busy (s : State) (e : Engine) : (s.issue e).busy = true := statusIssued_busy

@[simp] theorem State.raise_busy (s : State) (e : Err) : (s.raise e).busy = false := statusCompleted_busy e

@[simp] theorem State.raise_done (s : State) (e : Err) : (s.raise e).done = true := statusCompleted_done e

@[simp] theorem State.raise_err (s : State) (e : Err) : (s.raise e).err = errCode e := statusCompleted_err e

@[simp] theorem State.complete_busy (s : State) : s.complete.busy = false := statusCompleted_busy .none

@[simp] theorem State.complete_done (s : State) : s.complete.done = true := statusCompleted_done .none

@[simp] theorem State.complete_err (s : State) : s.complete.err = 0 := statusCompleted_err .none

end Sys2Proof.Machine
end

