-- ==== Sys2Proof/Laws/Engines.lean ====
section
/-!
SUPPORT. What the shared operations of the two engines can do, once each (10_state.md R20, R21; 41_packer_encoder.md
R52, R53; 43_unpacker_decoder.md R60).
-/

namespace Sys2Proof.Machine

/-- R4: a row has at least one group. -/
theorem canvas_G_pos (c : Canvas) : 0 < c.G := by
  have := c.hW
  unfold Canvas.G
  omega

/-- A column of the canvas lies in a group of its row. -/
theorem canvas_group_lt {c : Canvas} {x : Nat} (hx : x < c.W) : x / 4 < c.G := by
  unfold Canvas.G
  omega

/-- D2: the stream length fits `SLEN`. -/
theorem canvas_N_lt (c : Canvas) : c.N < 2 ^ 32 := by
  have h1 : c.G ≤ 16384 := by have := c.hW; unfold Canvas.G; omega
  calc c.N ≤ 16384 * 65535 := Nat.mul_le_mul h1 c.hH.2
    _ < 2 ^ 32 := by norm_num

/-- R20: the counters after a group step, as numbers; none of them wraps. -/
theorem Sequencer.advance_toNat {c : Canvas} {q : Sequencer} (hy : q.y.toNat < c.H)
    (hcur : q.cur.toNat < c.N) :
    (Sequencer.advance c q).cur.toNat = q.cur.toNat + 1 ∧
    (Sequencer.advance c q).x.toNat = (if q.x.toNat + 4 < c.W then q.x.toNat + 4 else 0) ∧
    (Sequencer.advance c q).y.toNat = (if q.x.toNat + 4 < c.W then q.y.toNat else q.y.toNat + 1) := by
  have hN := canvas_N_lt c
  have hW := c.hW
  have hH := c.hH
  unfold Sequencer.advance
  split
  · refine ⟨?_, ?_, rfl⟩ <;> rw [BitVec.toNat_add] <;> simp <;> omega
  · refine ⟨?_, rfl, ?_⟩ <;> rw [BitVec.toNat_add] <;> simp <;> omega

@[simp] theorem Sequencer.advance_engine (c : Canvas) (q : Sequencer) : (Sequencer.advance c q).engine = q.engine := by
  unfold Sequencer.advance; split <;> rfl

@[simp] theorem Sequencer.advance_gbuf (c : Canvas) (q : Sequencer) : (Sequencer.advance c q).gbuf = q.gbuf := by
  unfold Sequencer.advance; split <;> rfl

/-- The encoder's group depends on the raster and the epoch alone. -/
theorem loadGroup_congr {s t : State} (hm : t.rast = s.rast) (he : t.epoch = s.epoch) (c : Canvas) (x y : Nat) :
    loadGroup c t x y = loadGroup c s x y := by
  simp only [loadGroup, groupLevel, State.pixelAt_congr hm he]

/-- One lane of a decoded group: the raster alone changes, and only at that lane's pixel. -/
theorem storeLane_spec {c : Canvas} {s : State} (h : Memory.wf (c.W * c.H) s.rast = true) {y : Nat} (hy : y < c.H)
    (x : Nat) (l : Level) :
    Memory.wf (c.W * c.H) (storeLane c x y l s).rast = true ∧
    storeLane c x y l s = { s with rast := (storeLane c x y l s).rast } ∧
    ∀ x' y', x' < c.W → (storeLane c x y l s).pixelAt c x' y' =
      if x' = x ∧ y' = y then pixelOfLevel l else s.pixelAt c x' y' := by
  unfold storeLane
  split
  · rename_i hx
    refine ⟨Memory.wf_write h (pixelIndex_lt hx hy) _, rfl, fun x' y' hx' => ?_⟩
    rw [State.pixelAt_setPixel h hx hx']
    simp only [eq_comm]
  · refine ⟨h, rfl, fun x' y' hx' => ?_⟩
    rw [if_neg]
    rintro ⟨rfl, -⟩
    omega

/-- A decoded group: the raster alone changes, and only at the pixels of that group. -/
theorem storeGroup_spec {c : Canvas} {s : State} (h : Memory.wf (c.W * c.H) s.rast = true) {x y : Nat} (hy : y < c.H)
    (hx : x % 4 = 0) (g : Levels) :
    Memory.wf (c.W * c.H) (storeGroup c x y g s).rast = true ∧
    storeGroup c x y g s = { s with rast := (storeGroup c x y g s).rast } ∧
    ∀ x' y', x' < c.W → (storeGroup c x y g s).pixelAt c x' y' =
      if x' / 4 = x / 4 ∧ y' = y then pixelOfLevel (laneOf g (x' % 4)) else s.pixelAt c x' y' := by
  unfold storeGroup
  obtain ⟨a0, b0, d0⟩ := storeLane_spec h hy x g.l0
  generalize storeLane c x y g.l0 s = t0 at *
  obtain ⟨a1, b1, d1⟩ := storeLane_spec a0 hy (x + 1) g.l1
  generalize storeLane c (x + 1) y g.l1 t0 = t1 at *
  obtain ⟨a2, b2, d2⟩ := storeLane_spec a1 hy (x + 2) g.l2
  generalize storeLane c (x + 2) y g.l2 t1 = t2 at *
  obtain ⟨a3, b3, d3⟩ := storeLane_spec a2 hy (x + 3) g.l3
  generalize storeLane c (x + 3) y g.l3 t2 = t3 at *
  refine ⟨a3, by rw [b3, b2, b1, b0], fun x' y' hx' => ?_⟩
  rw [d3 _ _ hx', d2 _ _ hx', d1 _ _ hx', d0 _ _ hx']
  by_cases hyy : y' = y
  · simp only [hyy, and_true]
    by_cases hg : x' / 4 = x / 4
    · have : x' = x ∨ x' = x + 1 ∨ x' = x + 2 ∨ x' = x + 3 := by omega
      rcases this with rfl | rfl | rfl | rfl
      · simp [hx, laneOf]
      · have e : (x + 1) % 4 = 1 := by omega
        simp [e, laneOf, hg]
      · have e : (x + 2) % 4 = 2 := by omega
        simp [e, laneOf, hg]
      · have e : (x + 3) % 4 = 3 := by omega
        simp [e, laneOf, hg]
    · rw [if_neg (by omega), if_neg (by omega), if_neg (by omega), if_neg (by omega), if_neg hg]
  · simp [hyy]

/-- R20: everything a step of the engine can be. -/
theorem engineStep_cases (c : Canvas) (s : State) :
    (s.seq = none ∧ engineStep c s = s) ∨
    (∃ q, s.seq = some q ∧ q.y.toNat < c.H ∧ q.engine = .encoder ∧ engineStep c s = encodeGroup c q s) ∨
    (∃ q, s.seq = some q ∧ q.y.toNat < c.H ∧ q.engine = .decoder ∧ engineStep c s = decodeGroup c q s) ∨
    (∃ q, s.seq = some q ∧ c.H ≤ q.y.toNat ∧ engineStep c s = finish c q s) := by
  unfold engineStep
  split
  · exact .inl ⟨‹_›, rfl⟩
  · rename_i q hq
    split
    · rename_i hy
      cases he : q.engine
      · exact .inr (.inl ⟨q, hq, hy, he, by simp [groupStep, he]⟩)
      · exact .inr (.inr (.inl ⟨q, hq, hy, he, by simp [groupStep, he]⟩))
    · exact .inr (.inr (.inr ⟨q, hq, by omega, rfl⟩))

/-- A step more at the end of a run of the engine. -/
theorem runEngine_succ (c : Canvas) (n : Nat) (s : State) :
    runEngine c (n + 1) s = engineStep c (runEngine c n s) := by
  induction n generalizing s with
  | zero => rfl
  | succ n ih => rw [runEngine, ih]; rfl

/-- What no step of an engine changes: what is the host's, and the epoch. -/
theorem engineStep_host (c : Canvas) (s : State) :
    (engineStep c s).ports = s.ports ∧ (engineStep c s).epoch = s.epoch ∧
    (engineStep c s).hostIn = s.hostIn ∧ (engineStep c s).replies = s.replies := by
  have lane : ∀ (x y : Nat) (l : Level) (t : State), (storeLane c x y l t).ports = t.ports ∧
      (storeLane c x y l t).epoch = t.epoch ∧ (storeLane c x y l t).hostIn = t.hostIn ∧
      (storeLane c x y l t).replies = t.replies := by
    intro x y l t
    unfold storeLane
    split <;> exact ⟨rfl, rfl, rfl, rfl⟩
  rcases engineStep_cases c s with ⟨-, h⟩ | ⟨q, -, -, -, h⟩ | ⟨q, -, -, -, h⟩ | ⟨q, -, -, h⟩ <;> rw [h]
  · exact ⟨rfl, rfl, rfl, rfl⟩
  · exact ⟨rfl, rfl, rfl, rfl⟩
  · simp only [decodeGroup, storeGroup, lane, and_self]
  · unfold finish
    split <;> exact ⟨rfl, rfl, rfl, rfl⟩

end Sys2Proof.Machine
end

