-- ==== Sys2Proof/Laws/HostPort.lean ====
section
/-!
SUPPORT. Everything an action of the host and a fetch can do, once each (20_memory.md R32, R34, R38; 30_encoding.md
R42 to R44).
-/

namespace Sys2Proof.Machine

/-- A host access outside the locations of the block is refused, and one inside takes effect (R34, R38). -/
theorem hostAct_done_next {c : Canvas} {a : HostAction} {s t : State} (h : hostAct c a s = .done (.next t)) :
    (∃ r, t = s.reply r) ∨ (∃ x y p, x < c.W ∧ y < c.H ∧ t = s.setPixel c x y p) ∨
    (∃ k v, k < c.N ∧ t = s.setByte k v) ∨ (∃ n v, t = s.regWrite n v) ∨ t = s.raise .illegal ∨
    t = s.resetBlock := by
  cases a with
  | writeReg n v =>
    simp only [hostAct, hostWriteReg] at h
    split at h
    · cases h
    · split at h
      · split at h
        · unfold writeCommand at h
          split at h
          · cases h
          · cases h; exact .inr (.inr (.inr (.inr (.inl rfl))))
        · cases h; exact .inr (.inr (.inr (.inl ⟨_, _, rfl⟩)))
      · cases h
  | readReg n =>
    simp only [hostAct] at h
    split at h
    · cases h; exact .inl ⟨_, rfl⟩
    · cases h
  | writePixel x y p =>
    simp only [hostAct] at h
    split at h
    · rename_i hp
      simp only [Canvas.hasPixel, Bool.and_eq_true, decide_eq_true_eq] at hp
      cases h; exact .inr (.inl ⟨x, y, p, hp.1, hp.2, rfl⟩)
    · cases h
  | readPixel x y =>
    simp only [hostAct] at h
    split at h
    · cases h; exact .inl ⟨_, rfl⟩
    · cases h
  | writeByte k v =>
    simp only [hostAct] at h
    split at h
    · rename_i hp
      simp only [Canvas.hasByte, decide_eq_true_eq] at hp
      cases h; exact .inr (.inr (.inl ⟨k, v, hp, rfl⟩))
    · cases h
  | readByte k =>
    simp only [hostAct] at h
    split at h
    · cases h; exact .inl ⟨_, rfl⟩
    · cases h
  | drive p w =>
    simp only [hostAct, hostDrive] at h
    split at h <;> cases h
  | reset =>
    simp only [hostAct] at h
    cases h; exact .inr (.inr (.inr (.inr (.inr rfl))))

/-- An action that holds an instruction leaves the state to it. -/
theorem hostAct_instr {c : Canvas} {a : HostAction} {s t : State} {i : Instr} (h : hostAct c a s = .instr i t) :
    t = s := by
  cases a with
  | writeReg n v =>
    simp only [hostAct, hostWriteReg] at h
    split at h
    · cases h
    · split at h
      · split at h
        · unfold writeCommand at h
          split at h <;> cases h
          rfl
        · cases h
      · cases h
  | readReg n => simp only [hostAct] at h; split at h <;> cases h
  | writePixel x y p => simp only [hostAct] at h; split at h <;> cases h
  | readPixel x y => simp only [hostAct] at h; split at h <;> cases h
  | writeByte k v => simp only [hostAct] at h; split at h <;> cases h
  | readByte k => simp only [hostAct] at h; split at h <;> cases h
  | drive p w =>
    simp only [hostAct, hostDrive] at h
    split at h <;> cases h
    rfl
  | reset => simp only [hostAct] at h; cases h

/-- No action of the host faults: only a running engine in an impossible position does. -/
theorem hostAct_no_fault {c : Canvas} {a : HostAction} {s : State} {f : Fault} :
    hostAct c a s ≠ .done (.fault f) := by
  intro h
  cases a with
  | writeReg n v =>
    simp only [hostAct, hostWriteReg] at h
    split at h
    · cases h
    · split at h
      · split at h
        · unfold writeCommand at h
          split at h <;> cases h
        · cases h
      · cases h
  | readReg n => simp only [hostAct] at h; split at h <;> cases h
  | writePixel x y p => simp only [hostAct] at h; split at h <;> cases h
  | readPixel x y => simp only [hostAct] at h; split at h <;> cases h
  | writeByte k v => simp only [hostAct] at h; split at h <;> cases h
  | readByte k => simp only [hostAct] at h; split at h <;> cases h
  | drive p w => simp only [hostAct, hostDrive] at h; split at h <;> cases h
  | reset => simp only [hostAct] at h; cases h

/-- A host write of a command code reaches the command decoder (R17). -/
theorem hostWriteReg_command (code : Byte) (s : State) : hostWriteReg 0 (code.setWidth 32) s = writeCommand code s := by
  have h : (code.setWidth 32).toNat < 2 ^ 8 := by
    rw [BitVec.toNat_setWidth_of_le (by decide)]
    exact code.isLt
  have hw : (code.setWidth 32).setWidth 8 = code := by simp
  simp only [hostWriteReg, registerWidth, fitsRegister, decide_eq_true h, if_true, hw]

/-- A host write of 16 bits fits `RW` and `RH` (R16). -/
theorem hostWriteReg_shape {n : Nat} (hn : n = 2 ∨ n = 3) (v : BitVec 16) (s : State) :
    hostWriteReg n (v.setWidth 32) s = .done (.next (s.regWrite n (v.setWidth 32))) := by
  have h : (v.setWidth 32).toNat < 2 ^ 16 := by
    rw [BitVec.toNat_setWidth_of_le (by decide)]
    exact v.isLt
  rcases hn with rfl | rfl <;>
    simp only [hostWriteReg, registerWidth, fitsRegister, decide_eq_true h, if_true] <;> rfl

/-- With no command running, a fetch is the host's next action. -/
theorem fetchOn_settled {c : Canvas} {s : State} {a : HostAction} {rest : List HostAction} (hb : s.busy = false)
    (h : s.hostIn = a :: rest) : fetchOn c s = hostAct c a { s with hostIn := rest } := by
  simp only [fetchOn, h, hb, Bool.false_and, Bool.false_eq_true, if_false]

/-- What a fetch is: the waiting block, an access with no meaning while `BUSY = 1` (U5), or the host's next action. -/
theorem fetchOn_cases (c : Canvas) (s : State) :
    (s.hostIn = [] ∧ fetchOn c s = .done (idle c s)) ∨
    (∃ a rest, s.hostIn = a :: rest ∧ s.busy = true ∧ allowedWhileBusy a = false ∧
      fetchOn c s = .done (.refused .accessWhileBusy)) ∨
    (∃ a rest, s.hostIn = a :: rest ∧ (s.busy = false ∨ allowedWhileBusy a = true) ∧
      fetchOn c s = hostAct c a { s with hostIn := rest }) := by
  unfold fetchOn
  split
  · exact .inl ⟨‹_›, rfl⟩
  · rename_i a rest h
    split
    · rename_i hb
      simp only [Bool.and_eq_true, Bool.not_eq_true'] at hb
      exact .inr (.inl ⟨a, rest, h, hb.1, hb.2, rfl⟩)
    · rename_i hb
      simp only [Bool.and_eq_true, Bool.not_eq_true', not_and_or, Bool.not_eq_true, Bool.not_eq_false] at hb
      exact .inr (.inr ⟨a, rest, h, hb, rfl⟩)

end Sys2Proof.Machine
end

