-- ==== Sys2Proof/Laws/PerInstr.lean ====
section
/-!
SUPPORT. What is true of every instruction as syntax, one lemma per constructor.
-/

namespace Sys2Proof.Laws.EncodesLegally

/-- Every instruction is well-formed, its encoding goes where R42 and R43 say its bits go, and the decoder does not
reject it there. -/
def Statement (i : Instr) : Prop :=
  i.wellFormed = true ∧ ∃ j, decode (encode i).1 (encode i).2 = .ok j

theorem classify (a : Byte) : Statement (.classify a) := ⟨rfl, _, rfl⟩

theorem pack4 (l0 l1 l2 l3 : Level) : Statement (.pack4 l0 l1 l2 l3) := ⟨rfl, _, rfl⟩

theorem expand (l : Level) : Statement (.expand l) := by
  refine ⟨rfl, .expand ((l.setWidth 8).setWidth 2), ?_⟩
  have h : (l.setWidth 8).toNat < 4 := by
    rw [BitVec.toNat_setWidth_of_le (by decide)]
    exact l.isLt
  exact if_pos h

theorem unpack4 (b : Byte) : Statement (.unpack4 b) := ⟨rfl, _, rfl⟩

theorem encode : Statement .encode := ⟨rfl, _, rfl⟩

theorem decode : Statement .decode := ⟨rfl, _, rfl⟩

end Sys2Proof.Laws.EncodesLegally
end

