-- ==== Sys2Proof/Tests/Slice0.lean ====
section
/-!
SUPPORT. Tests of the model. Expected results are the spec's own: its encodings (30_encoding.md), its worked examples and
its vectors (95_test_vectors.md), each cited. The witnesses at the end show that the hypotheses of each statement can be met.
-/

namespace Sys2Proof.Tests

open Sys2Proof Sys2Proof.Machine

/-! ### Well-formedness and decoding -/

/-- R25, R34: the last pixel is a location, and the next column and the next row are not. -/
theorem test_wellFormed_pixel : Config.canvas.hasPixel 319 239 = true ∧ Config.canvas.hasPixel 320 0 = false ∧
    Config.canvas.hasPixel 0 240 = false := by decide

/-- R25, R34: byte 19199 is a location and byte 19200 is not. -/
theorem test_wellFormed_byte : Config.canvas.hasByte 19199 = true ∧ Config.canvas.hasByte 19200 = false := by decide

/-- R16: registers 0 to 4 and their widths; a number above 4 and a value too wide are refused. -/
theorem test_wellFormed_register : registerWidth 4 = some 32 ∧ registerWidth 5 = none ∧ fitsRegister 2 65535 = true ∧
    fitsRegister 2 65536 = false ∧ fitsRegister 0 256 = false ∧ fitsRegister 5 0 = false := by decide

/-- R48, R51, R56, R59: no operand value is ill-formed. -/
theorem test_wellFormed_instr : (Instr.classify 255).wellFormed = true ∧ (Instr.pack4 3 3 3 3).wellFormed = true := by
  decide

/-- R42: CLASSIFY by port `Q_A`, the byte `0b01010101` is alpha 85. -/
theorem test_decode_classify : decode (.port .qA) 0b01010101 = .ok (.classify 85) := by rfl

/-- R40: `0b00_01_10_11` on the packer's ports is 0, 1, 2, 3, the leftmost pixel in the highest bits. -/
theorem test_decode_pack4 : decode (.port .pL) 0b00011011 = .ok (.pack4 0 1 2 3) := by rfl

/-- R42: `0b10` on the two-bit port `X_L`; a third bit has no port bit. -/
theorem test_decode_expand : decode (.port .xL) 0b10 = .ok (.expand 2) ∧
    decode (.port .xL) 0b100 = .error (.portTooNarrow .xL) := by constructor <;> rfl

/-- R42: UNPACK4 by port `U_B`. -/
theorem test_decode_unpack4 : decode (.port .uB) 0b11100100 = .ok (.unpack4 0xE4) := by rfl

/-- R43: the codes `0x01` and `0x02`; R44: `0x00`, `0x03` and `0xFF` are reserved. -/
theorem test_decode_commands : decode .cmd 0b00000001 = .ok .encode ∧ decode .cmd 0b00000010 = .ok .decode ∧
    decode .cmd 0 = .error (.reservedCommand 0) ∧ decode .cmd 3 = .error (.reservedCommand 3) ∧
    decode .cmd 255 = .error (.reservedCommand 255) := by
  refine ⟨rfl, rfl, rfl, rfl, rfl⟩

/-- The table's rows with a code, numbered as the table numbers them. -/
theorem test_decodeTableWord : decodeTableWord 8 1 = some .encode ∧ decodeTableWord 8 2 = some .decode ∧
    decodeTableWord 8 3 = none := by decide

/-! ### The units -/

/-- Vector 1.1, and 63 and 127 of vector 2.1, where `a >> 6` would differ. -/
theorem test_classify : classify 0 = 0 ∧ classify 1 = 1 ∧ classify 63 = 1 ∧ classify 84 = 1 ∧ classify 85 = 2 ∧
    classify 127 = 2 ∧ classify 169 = 2 ∧ classify 170 = 3 ∧ classify 255 = 3 := by decide

/-- Vector 2.2. -/
theorem test_pack4 : pack4 ⟨0, 1, 2, 3⟩ = 0x1B ∧ pack4 ⟨3, 0, 0, 0⟩ = 0xC0 ∧ pack4 ⟨0, 0, 0, 3⟩ = 0x03 ∧
    pack4 ⟨1, 2, 3, 0⟩ = 0x6C ∧ pack4 ⟨2, 3, 0, 0⟩ = 0xB0 := by decide

/-- Vector 1.2, and the `X_PIX` words of vector 2.3. -/
theorem test_expand : expand 0 = 0 ∧ expand 1 = 64 ∧ expand 2 = 128 ∧ expand 3 = 255 ∧
    pixelWord (pixelOfLevel 1) = 0xFFFFFF40 ∧ pixelWord (pixelOfLevel 3) = 0xFFFFFFFF := by decide

/-- Vector 2.4. -/
theorem test_unpack4 : unpack4 0x1B = ⟨0, 1, 2, 3⟩ ∧ unpack4 0xC0 = ⟨3, 0, 0, 0⟩ ∧ unpack4 0x6C = ⟨1, 2, 3, 0⟩ := by
  decide

/-- Program P1, line 2: the pixel `(10, 20, 30, 255)` is the word `0x0A141EFF` (R28). -/
theorem test_pixelWord : pixelWord ⟨10, 20, 30, 255⟩ = 0x0A141EFF ∧ pixelOfWord 0x0A141EFF = ⟨10, 20, 30, 255⟩ := by
  decide

/-- What an answer leaves in `f`, where it is a next state. -/
def after {α : Type} (f : State → α) : Host.Outcome State Fault Refusal → Option α
  | .next t => some (f t)
  | .fault _ => none
  | .refused _ => none

/-- R48's example: `CLASSIFY 85 -> 2`. -/
theorem test_exec_classify : after State.replies (exec (.classify 85) State.reset) = some [.level 2] := by decide

/-- R51's example: `PACK4 0, 1, 2, 3 -> 0x1B`. -/
theorem test_exec_pack4 : after State.replies (exec (.pack4 0 1 2 3) State.reset) = some [.packed 0x1B] := by decide

/-- R56's example: `EXPAND 2 -> 128`. -/
theorem test_exec_expand : after State.replies (exec (.expand 2) State.reset) = some [.alpha 128 0xFFFFFF80] := by
  decide

/-- R59's example: `UNPACK4 0xE4 -> 3, 2, 1, 0`. -/
theorem test_exec_unpack4 : after State.replies (exec (.unpack4 0xE4) State.reset) = some [.levels ⟨3, 2, 1, 0⟩] := by
  decide

/-! ### The engines on small canvases -/

/-- A declared one-row or two-row raster of the given alphas, colour `(1, 2, 3)`. -/
def rasterOf (c : Canvas) (alphas : List Byte) : State :=
  { State.reset with
    rast := alphas.zipIdx.map fun e => (e.2, ⟨1, 2, 3, e.1⟩)
    rw := BitVec.ofNat 16 c.W
    rh := BitVec.ofNat 16 c.H }

/-- A declared stream of the given bytes. -/
def streamOf (bytes : List Byte) : State :=
  { State.reset with
    strm := bytes.zipIdx.map fun e => (e.2, e.1)
    slen := BitVec.ofNat 32 bytes.length }

/-- The elements a buffer lists, in order. -/
def elements {α : Type} (m : Memory α) : List α := m.map fun e => e.2

def canvas6x2 : Canvas := ⟨6, 2, by decide, by decide⟩

def canvas3x2 : Canvas := ⟨3, 2, by decide, by decide⟩

def canvas5x1 : Canvas := ⟨5, 1, by decide, by decide⟩

def canvas1x1 : Canvas := ⟨1, 1, by decide, by decide⟩

/-- Program P2, line 4: `0x16 0xB0 0xC9 0x30`, `SLEN = 4`, `STATUS = 0x02`. -/
theorem test_encode_P2 :
    let t := encodeOn canvas6x2 (rasterOf canvas6x2 [0, 1, 84, 85, 169, 170, 255, 0, 128, 64, 0, 200])
    elements t.strm = [0x16, 0xB0, 0xC9, 0x30] ∧ t.slen = 4 ∧ t.status = 0x02 := by decide

/-- Vector 2.7, `W = 3`, `H = 2`: `0xFC 0x48`; the next row's pixel is not packed into the padding lane. -/
theorem test_encode_3x2 :
    elements (encodeOn canvas3x2 (rasterOf canvas3x2 [255, 255, 255, 1, 0, 90])).strm = [0xFC, 0x48] := by decide

/-- Vector 2.7, `W = 5` and `W = 1`. -/
theorem test_encode_short_rows :
    elements (encodeOn canvas5x1 (rasterOf canvas5x1 [1, 85, 170, 0, 255])).strm = [0x6C, 0xC0] ∧
    elements (encodeOn canvas1x1 (rasterOf canvas1x1 [200])).strm = [0xC0] := by decide

/-- Vector 2.7: the padding lanes `0b1111` and `0b1010` are ignored; `(RW, RH) = (6, 2)`. -/
theorem test_decode_ignores_padding :
    let t := decodeOn canvas6x2 (streamOf [0x16, 0xBF, 0xC9, 0x3A])
    (elements t.rast).map Pixel.a = [0, 64, 64, 128, 128, 255, 255, 0, 128, 64, 0, 255] ∧
    t.rw = 6 ∧ t.rh = 2 ∧ t.status = 0x02 := by decide

/-- Vector 2.7: an ENCODE after that DECODE forces the padding lanes to 0. -/
theorem test_decode_then_encode :
    elements (encodeOn canvas6x2 (decodeOn canvas6x2 (streamOf [0x16, 0xBF, 0xC9, 0x3A]))).strm
      = [0x16, 0xB0, 0xC9, 0x30] := by decide

/-- R4: the numbers of this hardware, and `G = 81`, `N = 19440` at the source's test width 322. -/
theorem test_canvas : Config.canvas.G = 80 ∧ Config.canvas.N = 19200 ∧
    (Canvas.mk 322 240 (by decide) (by decide)).G = 81 ∧ (Canvas.mk 322 240 (by decide) (by decide)).N = 19440 := by
  decide

/-- Vector 1.10: pixel `(319, 0)` in byte 79, `(0, 1)` in byte 80, `(319, 239)` in byte 19199. -/
theorem test_byteIndex : byteIndex Config.canvas 319 0 = 79 ∧ byteIndex Config.canvas 0 1 = 80 ∧
    byteIndex Config.canvas 319 239 = 19199 := by decide

/-! ### Errors and `STATUS` (vector 2.8) -/

/-- `RW = 240`, `RH = 320`: the pixel count is right and the shape wrong: `0x06`. -/
theorem test_encode_shapeError :
    after State.status (exec .encode { State.reset with rw := 240, rh := 320 }) = some 0x06 := by decide

/-- `SLEN = 76800` (the pixel count) and `SLEN = 19201`: `0x0A`. -/
theorem test_decode_lengthError :
    after State.status (exec .decode { State.reset with slen := 76800 }) = some 0x0A ∧
    after State.status (exec .decode { State.reset with slen := 19201 }) = some 0x0A := by decide

/-- `WR CMD, 0x03` and `WR CMD, 0xFF`: `0x0E`. -/
theorem test_illegalCommand : after State.status (step (State.reset.withFetchWord 8 3)) = some 0x0E ∧
    after State.status (step (State.reset.withFetchWord 8 255)) = some 0x0E := by decide

/-- Vector 2.9: `RESET ; ENCODE` gives `0x06` and `RESET ; DECODE` gives `0x0A`. -/
theorem test_first_commands_after_reset :
    after State.status (step (State.reset.withFetchWord 8 1)) = some 0x06 ∧
    after State.status (step (State.reset.withFetchWord 8 2)) = some 0x0A := by decide

/-- `RD CMD` returns 0, and `WR STATUS, 0xFF` is ignored. -/
theorem test_cmd_and_status :
    after State.replies (step { State.reset with status := 0x06, hostIn := [.readReg 0] }) = some [.register 0 0] ∧
    after State.status (step { State.reset with status := 0x06, hostIn := [.writeReg 1 0xFF] }) = some 0x06 := by
  decide

/-- Program P1, line 3: `WR REG[2], 0x0140`. -/
theorem test_writeReg_rw : after State.rw (step { State.reset with hostIn := [.writeReg 2 0x0140] }) = some 320 := by
  decide

/-- R47: the pseudo-operations stand for their expansions. -/
theorem test_pseudo : pseudoFillRast canvas3x2 ⟨0, 0, 0, 9⟩ = [.writePixel 0 0 ⟨0, 0, 0, 9⟩, .writePixel 1 0 ⟨0, 0, 0, 9⟩,
      .writePixel 2 0 ⟨0, 0, 0, 9⟩, .writePixel 0 1 ⟨0, 0, 0, 9⟩, .writePixel 1 1 ⟨0, 0, 0, 9⟩,
      .writePixel 2 1 ⟨0, 0, 0, 9⟩] ∧
    pseudoFillStrm canvas3x2 7 = [.writeByte 0 7, .writeByte 1 7] ∧
    pseudoSetRaster 320 240 = [.writeReg 2 0x0140, .writeReg 3 0x00F0] ∧
    pseudoSetStream 19200 = [.writeReg 4 0x00004B00] ∧ pseudoEncode = .writeReg 0 1 ∧ pseudoDecode = .writeReg 0 2 := by
  decide

/-- R76: a reset inside a command abandons it, what it had written and its descriptors. -/
theorem test_reset_inside_command :
    let s : State := { streamOf [0xAA, 0xAA, 0xAA, 0xAA] with hostIn := [.reset], epoch := 4 }
    after id (step (s.issue .decoder)) = some { State.reset with epoch := 5 } := by decide

/-- R38: while `BUSY = 1` `STATUS` reads with bit 0 set, and a buffer access has no meaning. -/
theorem test_busy :
    after State.replies (step ({ State.reset with hostIn := [.readReg 1] }.issue .encoder)) = some [.register 1 1] ∧
    after State.replies (step ({ State.reset with hostIn := [.readByte 0] }.issue .encoder)) = none := by decide

/-! ### Witnesses: the hypotheses of the statements can be met -/

/-- A state with the canvas and a full-length stream declared, both buffers unwritten, `STATUS` of a failed command. -/
def declared : State := { State.reset with rw := 320, rh := 240, slen := 19200, status := 0x06 }

theorem declared_inv : State.Inv Config.canvas declared where
  rast_wf := rfl
  strm_wf := rfl
  status_legal := .inr (.inr ⟨.shape, by decide⟩)
  busy_iff := by decide
  seq_inRange := by simp [declared, State.reset]

/-- EncodeCompletes, DecodeCompletes, EveryCommandEndsGoodOrInError, EncodeThenDecode, DecodeThenEncode. -/
theorem witness_declared : State.Inv Config.canvas declared ∧ declared.busy = false ∧ declared.rw = 320 ∧
    declared.rh = 240 ∧ declared.slen = 19200 ∧ declared.rw.toNat = Config.canvas.W ∧
    declared.rh.toNat = Config.canvas.H ∧ declared.slen.toNat = Config.canvas.N :=
  ⟨declared_inv, by decide, rfl, rfl, rfl, rfl, rfl, by decide⟩

/-- A declared raster and its stream on the 6 by 2 canvas, every element written. -/
def declared6x2 : State :=
  { rasterOf canvas6x2 [0, 1, 84, 85, 169, 170, 255, 0, 128, 64, 0, 200] with
    strm := [(0, 0x16), (1, 0xBF), (2, 0xC9), (3, 0x3A)], slen := 4 }

/-- EncodeLanesOnEveryCanvas, DecodePixelsOnEveryCanvas, WrittenRasterFixesStream, WrittenStreamFixesRaster. -/
theorem witness_every_canvas : Memory.wf canvas6x2.N declared6x2.strm = true ∧
    Memory.wf (canvas6x2.W * canvas6x2.H) declared6x2.rast = true ∧ declared6x2.rw.toNat = canvas6x2.W ∧
    declared6x2.rh.toNat = canvas6x2.H ∧ declared6x2.slen.toNat = canvas6x2.N ∧
    State.RasterWritten canvas6x2 declared6x2 ∧ State.StreamWritten canvas6x2 declared6x2 := by
  refine ⟨by decide, by decide, by decide, by decide, by decide, ?_, ?_⟩
  · have h : ∀ x < 6, ∀ y < 2, (Memory.lookup declared6x2.rast (pixelIndex canvas6x2 x y)).isSome = true := by decide
    exact fun x y hx hy => h x hx y hy
  · have h : ∀ k < 4, (Memory.lookup declared6x2.strm k).isSome = true := by decide
    exact h

/-- EncodeDependsOnAlphaOnly, DecodeIgnoresPadding: two states that differ in colour, in padding lanes and in what they
held before, and agree in every alpha and in every lane of a pixel. -/
theorem witness_two_states :
    let t : State := { declared6x2 with
      rast := (declared6x2.rast.map fun e => (e.1, { e.2 with r := 200 }))
      strm := [(0, 0x16), (1, 0xB5), (2, 0xC9), (3, 0x30)] }
    Memory.wf canvas6x2.N t.strm = true ∧ Memory.wf (canvas6x2.W * canvas6x2.H) t.rast = true ∧
    t.rw = declared6x2.rw ∧ t.rh = declared6x2.rh ∧ t.slen = declared6x2.slen ∧
    (∀ x < 6, ∀ y < 2, (t.pixelAt canvas6x2 x y).a = (declared6x2.pixelAt canvas6x2 x y).a) ∧
    (∀ x < 6, ∀ y < 2, lane (t.byteAt (byteIndex canvas6x2 x y)) (x % 4)
      = lane (declared6x2.byteAt (byteIndex canvas6x2 x y)) (x % 4)) ∧ t.rast ≠ declared6x2.rast := by
  decide

/-- UniformRastersAndPadding: an opaque and a transparent raster on a 6 by 2 canvas (`W mod 4 = 2`) and an opaque one on a
canvas without padding. -/
theorem witness_uniform :
    (∀ x < 6, ∀ y < 2, ((rasterOf canvas6x2 (List.replicate 12 0)).pixelAt canvas6x2 x y).a = 0) ∧
    canvas6x2.W % 4 = 2 ∧
    (∀ x < 4, ∀ y < 1, ((rasterOf ⟨4, 1, by decide, by decide⟩ (List.replicate 4 255)).pixelAt
      ⟨4, 1, by decide, by decide⟩ x y).a = 255) := by decide

/-- EncodeShapeError, DecodeLengthError, ResetState, WaitsForTheHost: the reset state. -/
theorem witness_reset : State.reset.busy = false ∧ State.reset.rw ≠ 320 ∧ State.reset.slen ≠ 19200 ∧
    State.reset.hostIn = [] ∧ State.reset.seq = none ∧ State.Settled State.reset := by
  refine ⟨by decide, by decide, by decide, rfl, rfl, by decide, rfl⟩

/-- A running ENCODE at the second group of the first row. -/
def running : State :=
  { State.reset with status := statusIssued, seq := some ⟨.encoder, 0, 4, 1, ⟨0, 0, 0, 0⟩⟩ }

/-- GroupStepWritesItsGroupOnly, AccessWhileBusy, EveryStepKeepsTheInvariant, NoStepFaults, in a busy state too. -/
theorem witness_running : State.Inv Config.canvas running ∧ running.busy = true ∧
    (∃ q, running.seq = some q ∧ q.y.toNat < Config.canvas.H) ∧
    (∃ t, step running = .next t) ∧
    (∃ t, step { running with hostIn := [.readReg 1] } = .next t) := by
  refine ⟨⟨rfl, rfl, .inr (.inl rfl), by decide, ?_⟩, by decide, ⟨_, rfl, by decide⟩, ?_, ?_⟩
  · intro q hq
    cases hq
    decide
  · exact ⟨engineStep Config.canvas running, rfl⟩
  · exact ⟨{ running with replies := [.register 1 1] }, rfl⟩

/-- GroupStepWritesItsGroupOnly: with `CUR = 1`, the columns where its clauses meet: 4 and 7 of row 0 are in the group, 3
and 8 are not. -/
theorem witness_group_columns : byteIndex Config.canvas 4 0 = 1 ∧ byteIndex Config.canvas 7 0 = 1 ∧
    byteIndex Config.canvas 3 0 ≠ 1 ∧ byteIndex Config.canvas 8 0 ≠ 1 := by decide

/-- R60, R61: a group step of DECODE on the byte `0x1B` writes alphas 0, 64, 128, 255 (vector 2.6). -/
theorem test_decodeGroup : (elements (decodeGroup Config.canvas (Sequencer.start .decoder) (streamOf [0x1B])).rast).map
    Pixel.a = [0, 64, 128, 255] := by decide

/-- AtomicCommandIsTheRunOfTheEngine: no action of the host, and the canvas or the stream declared. -/
theorem witness_atomic : declared.hostIn = [] ∧ declared.rw = 320 ∧ declared.rh = 240 ∧ declared.slen = 19200 :=
  ⟨rfl, rfl, rfl, rfl⟩

/-- ReservedCodeIsIllegalCommand, StepRunsTheDecodedInstruction, RegisterReads, RegisterWrites, HostWriteThenRead,
HostReadsHaveNoSideEffect, OutOfRangeAccessIsRefused, ResetFromAnyState: a state of the block with no command running and
any next action of the host. -/
theorem witness_next_action (a : HostAction) : State.Inv Config.canvas { declared with hostIn := [a] } ∧
    State.busy { declared with hostIn := [a] } = false ∧ { declared with hostIn := [a] }.hostIn = a :: [] := by
  refine ⟨⟨rfl, rfl, declared_inv.status_legal, declared_inv.busy_iff, ?_⟩, witness_declared.2.1, rfl⟩
  simp [declared, State.reset]

/-- StepRunsTheDecodedInstruction: a code and a driven value that decode. -/
theorem witness_decodes : decode .cmd 0x01 = .ok .encode ∧ decode (.port .xL) 3 = .ok (.expand 3) := ⟨rfl, rfl⟩

/-- OnlyDrivingChangesPorts, OnlyTheseEventsWrite, OnlyTheseEventsWriteDescriptors, NoCommandIsLeftRunning: a step that
answers a next state and changes the stream, with no command running before it. -/
theorem witness_step : ∃ t, step { declared with hostIn := [.writeByte 0 0xAA] } = .next t ∧ t.strm ≠ declared.strm ∧
    State.Settled { declared with hostIn := [.writeByte 0 0xAA] } ∧
    ∀ p w rest, { declared with hostIn := [.writeByte 0 0xAA] }.hostIn ≠ HostAction.drive p w :: rest := by
  refine ⟨{ declared with strm := [(0, 0xAA)] }, rfl, by decide, ⟨rfl, rfl⟩, ?_⟩
  intro p w rest h
  cases h

/-- GroupsNeverShareAByte, EncodeLanesOnEveryCanvas: the corners of this canvas, and the padding lanes of one with padding
(columns 6 and 7 of width 6). -/
theorem witness_columns : (319 < Config.canvas.W ∧ 239 < Config.canvas.H) ∧
    (canvas6x2.W ≤ 6 ∧ 7 < 4 * canvas6x2.G ∧ 1 < canvas6x2.H) := by decide

/-- EachCommandMakesItsOneCheck: both checks pass; GroupBufferIsCleared: a group with a lane beyond `W`;
SequencerFollowsTheScan and CommandTakesExactlyNGroupSteps: `n = N` is allowed. -/
theorem witness_checks : shapeOk Config.canvas declared = true ∧ lengthOk Config.canvas declared = true ∧
    canvas6x2.W ≤ (4 : BitVec 16).toNat + 2 ∧ Config.canvas.N ≤ Config.canvas.N := by decide

end Sys2Proof.Tests
end

/-!
PROOFS, family 00_scope.md: the atomic command and the run of the stepwise engine are one (O33). With no action of the
host a step of the machine is a step of the engine while the counters are at a group of the canvas (R20), and every step
of the engine keeps them there.
-/

namespace Sys2Proof.Machine

/-- R20: what it is for the counters to be at a group of the canvas, or past the last one. -/
theorem Sequencer.inRange_iff {c : Canvas} {q : Sequencer} :
    q.inRange c = true ↔ q.y.toNat ≤ c.H ∧ q.x.toNat < c.W ∧ q.x.toNat % 4 = 0 ∧
      q.cur.toNat = q.y.toNat * c.G + q.x.toNat / 4 ∧ (q.y.toNat = c.H → q.x.toNat = 0) := by
  simp only [Sequencer.inRange, Bool.and_eq_true, decide_eq_true_eq, and_assoc]

/-- R30: the byte of a pixel of the canvas is a byte of the stream. -/
theorem byteIndex_lt {c : Canvas} {x y : Nat} (hx : x < c.W) (hy : y < c.H) : byteIndex c x y < c.N :=
  calc y * c.G + x / 4 < y * c.G + c.G := Nat.add_lt_add_left (canvas_group_lt hx) _
    _ = (y + 1) * c.G := (Nat.succ_mul ..).symm
    _ ≤ c.H * c.G := Nat.mul_le_mul_right _ hy
    _ = c.N := Nat.mul_comm ..

/-- R20: a command starts at the first group of the canvas. -/
theorem Sequencer.start_inRange (c : Canvas) (e : Engine) : (Sequencer.start e).inRange c = true :=
  Sequencer.inRange_iff.mpr ⟨Nat.zero_le _, c.hW.1, rfl, by simp [Sequencer.start], fun _ => rfl⟩

/-- R20: from a group of the canvas the counters go on to the next group, or past the last one. -/
theorem Sequencer.advance_inRange {c : Canvas} {q : Sequencer} (h : q.inRange c = true) (hy : q.y.toNat < c.H) :
    (Sequencer.advance c q).inRange c = true := by
  obtain ⟨-, hx, hx4, hcur, -⟩ := Sequencer.inRange_iff.mp h
  obtain ⟨hcur', hx', hy'⟩ := Sequencer.advance_toNat hy (hcur ▸ byteIndex_lt hx hy)
  rw [Sequencer.inRange_iff, hcur', hx', hy', hcur]
  split
  · -- the row goes on
    exact ⟨hy.le, by omega, by omega, by omega, by omega⟩
  · -- the group was the last of its row, number `G - 1`
    have hG : q.x.toNat / 4 + 1 = c.G := by unfold Canvas.G; omega
    refine ⟨hy, by omega, rfl, ?_, fun _ => rfl⟩
    rw [Nat.succ_mul]
    omega

/-- R20: a command that still runs after a step of the engine has taken a group step and advanced. -/
theorem engineStep_seq_some {c : Canvas} {s : State} {q' : Sequencer} (h : (engineStep c s).seq = some q') :
    ∃ q g, s.seq = some q ∧ q.y.toNat < c.H ∧ q' = Sequencer.advance c { q with gbuf := g } := by
  rcases engineStep_cases c s with ⟨hs, he⟩ | ⟨q, hs, hy, -, he⟩ | ⟨q, hs, hy, -, he⟩ | ⟨q, -, -, he⟩ <;> rw [he] at h
  · rw [hs] at h; cases h
  · cases h; exact ⟨q, _, hs, hy, rfl⟩
  · cases h; exact ⟨q, _, hs, hy, rfl⟩
  · unfold finish at h
    split at h <;> cases h

/-- R20: every step of the engine keeps the counters of a running command in range. -/
theorem engineStep_inRange {c : Canvas} {s : State} (h : ∀ q, s.seq = some q → q.inRange c = true) :
    ∀ q, (engineStep c s).seq = some q → q.inRange c = true := by
  intro q' hq'
  obtain ⟨q, g, hq, hy, rfl⟩ := engineStep_seq_some hq'
  -- the range speaks of the counters alone, not of the group buffer
  have hg : Sequencer.inRange c { q with gbuf := g } = true := h q hq
  exact Sequencer.advance_inRange hg hy

/-- R20: with the counters in range, the block left alone takes one step of its engine (none, if no command runs). -/
theorem idle_eq_engineStep {c : Canvas} {s : State} (h : ∀ q, s.seq = some q → q.inRange c = true) :
    idle c s = .next (engineStep c s) := by
  cases hs : s.seq with
  | none => simp [idle, engineStep, hs]
  | some q => simp [idle, hs, h q hs]

/-- With no action of the host, a step of the machine is what the block does alone. -/
theorem step_hostIn_nil {s : State} (h : s.hostIn = []) : step s = idle Config.canvas s := by
  simp [step, fetch, fetchOn, h]

/-- A run whose first step answers a next state goes on from there. -/
theorem run_succ_of_next {M : Host.Core} {s s' : M.State} (n : Nat) (h : M.step s = .next s') :
    M.run (n + 1) s = M.run n s' := by
  simp only [Host.Core.run, h]

/-- R6, R20: with no action of the host, the run of the machine is the run of its engine, step for step. -/
theorem run_eq_runEngine (n : Nat) {s : State} (hin : s.hostIn = [])
    (h : ∀ q, s.seq = some q → q.inRange Config.canvas = true) :
    Host.Core.run core n s = .next (runEngine Config.canvas n s) := by
  induction n generalizing s with
  | zero => rfl
  | succ n ih =>
    have hstep : core.step s = .next (engineStep Config.canvas s) := (step_hostIn_nil hin).trans (idle_eq_engineStep h)
    obtain ⟨-, -, hhost, -⟩ := engineStep_host Config.canvas s
    rw [run_succ_of_next n hstep]
    exact ih (hhost.trans hin) (engineStep_inRange h)

/-- R6, R83: from the write to `CMD`, `N + 1` steps of the machine are the run of the engine it starts. -/
theorem run_issue_eq_runEngine {s : State} (e : Engine) (hin : s.hostIn = []) :
    Host.Core.run core 19201 (s.issue e) = .next (runEngine Config.canvas (Config.canvas.N + 1) (s.issue e)) :=
  run_eq_runEngine (Config.canvas.N + 1) hin fun _ hq => Option.some.inj hq ▸ Sequencer.start_inRange _ e

/-- R53: ENCODE of a raster of the canvas's shape is the run of the encoder. -/
theorem encodeOn_of_shape {c : Canvas} {s : State} (hw : s.rw.toNat = c.W) (hh : s.rh.toNat = c.H) :
    encodeOn c s = runEngine c (c.N + 1) (s.issue .encoder) :=
  if_pos (by simp [shapeOk, hw, hh])

/-- R60: DECODE of a stream of the canvas's length is the run of the decoder. -/
theorem decodeOn_of_length {c : Canvas} {s : State} (hn : s.slen.toNat = c.N) :
    decodeOn c s = runEngine c (c.N + 1) (s.issue .decoder) :=
  if_pos (by simp [lengthOk, hn])

/-- Settles O33: with the descriptors of the canvas a command is the run of its engine by definition, and the machine
left alone runs the engine. -/
theorem atomicCommandIsTheRunOfTheEngine : Obligations.AtomicCommandIsTheRunOfTheEngine := by
  intro s hin
  refine ⟨fun hw hh => ?_, fun hn => ?_⟩
  · rw [run_issue_eq_runEngine .encoder hin, encodeOn_of_shape (by rw [hw]; rfl) (by rw [hh]; rfl)]
  · rw [run_issue_eq_runEngine .decoder hin, decodeOn_of_length (by rw [hn]; rfl)]

end Sys2Proof.Machine

/-!
PROOFS, family 10_state.md: the state and its invariant (O53, O52, O51), what each event changes (O14, O49, O50), the
sequencer and its group steps (O29, O31, O32), the registers (O40, O41) and reset (O47). Everything a step can do is said
once, in `step_next_cases`: a step of the engine, or one effect (`HostEffect`) of the host's next action. A command is
its error or the run of its engine (`CommandEnd`), and the run stands at group `n` after `n` steps (`State.RunsAt`).
-/

namespace Sys2Proof.Machine

/-! ### Everything a step can do -/

/-- What comes of a fetch: the meaning of the instruction it hands over, or what it has already answered. -/
def Fetched.outcome : Fetched → Host.Outcome State Fault Refusal
  | .instr i t => exec i t
  | .done o => o

theorem step_eq_outcome (s : State) : step s = (fetch s).outcome := rfl

/-- With no command running, a step takes the host's next action. -/
theorem step_settled {s : State} {a : HostAction} {rest : List HostAction} (hb : s.busy = false)
    (h : s.hostIn = a :: rest) : step s = (hostAct Config.canvas a { s with hostIn := rest }).outcome := by
  rw [step_eq_outcome, fetch, fetchOn_settled hb h]

/-- What an action of the host may turn `s` into, one constructor per effect (R31, R32, R42 to R44, R76). -/
inductive HostEffect (s : State) : HostAction → State → Prop
  | readReg (n : Nat) (v : BitVec 32) : HostEffect s (.readReg n) (s.reply (.register n v))
  | readPixel (x y : Nat) (p : Pixel) : HostEffect s (.readPixel x y) (s.reply (.pixel p))
  | readByte (k : Nat) (v : Byte) : HostEffect s (.readByte k) (s.reply (.byte v))
  | writePixel {x y : Nat} (p : Pixel) (hx : x < Config.canvas.W) (hy : y < Config.canvas.H) :
      HostEffect s (.writePixel x y p) (s.setPixel Config.canvas x y p)
  | writeByte {k : Nat} (v : Byte) (hk : k < Config.canvas.N) : HostEffect s (.writeByte k v) (s.setByte k v)
  | writeReg {n : Nat} (v : BitVec 32) (hn : n ≠ 0) : HostEffect s (.writeReg n v) (s.regWrite n v)
  | encode : HostEffect s (.writeReg 0 0x01) (encodeOn Config.canvas s)
  | decode : HostEffect s (.writeReg 0 0x02) (decodeOn Config.canvas s)
  | illegal (v : BitVec 32) : HostEffect s (.writeReg 0 v) (s.raise .illegal)
  | drive (p : UnitPort) (w : Byte) (ports : Ports) (r : Reply) :
      HostEffect s (.drive p w) (State.reply { s with ports := ports } r)
  | reset : HostEffect s .reset s.resetBlock

/-- R43, R44: a code written to `CMD` issues ENCODE or DECODE, or raises IllegalCommand. -/
theorem writeCommand_next {b : Byte} {s t : State} (h : (writeCommand b s).outcome = .next t) :
    (b = 0x01 ∧ t = encodeOn Config.canvas s) ∨ (b = 0x02 ∧ t = decodeOn Config.canvas s) ∨ t = s.raise .illegal := by
  by_cases h1 : b = 0x01
  · subst h1
    change execEncode s = _ at h
    unfold execEncode at h
    split at h <;> cases h
    exact .inl ⟨rfl, rfl⟩
  by_cases h2 : b = 0x02
  · subst h2
    change execDecode s = _ at h
    unfold execDecode at h
    split at h <;> cases h
    exact .inr (.inl ⟨rfl, rfl⟩)
  · simp only [writeCommand, Sys2Proof.decode, decodeCommand, if_neg h1, if_neg h2, Fetched.outcome] at h
    cases h
    exact .inr (.inr rfl)

/-- R16: a register write that answers a next state wrote register 1 to 4, or gave `CMD` a value of 8 bits. -/
theorem hostWriteReg_next {n : Nat} {v : BitVec 32} {s t : State} (h : (hostWriteReg n v s).outcome = .next t) :
    (n ≠ 0 ∧ t = s.regWrite n v) ∨
    (n = 0 ∧ v.toNat < 256 ∧ (writeCommand (v.setWidth 8) s).outcome = .next t) := by
  unfold hostWriteReg at h
  split at h
  · cases h
  · split at h
    · rename_i hfit
      split at h
      · rename_i hn
        subst hn
        exact .inr ⟨rfl, of_decide_eq_true hfit, h⟩
      · rename_i hn
        cases h
        exact .inl ⟨hn, rfl⟩
    · cases h

/-- R42: a driven port sets the ports and returns what the unit answers, and does nothing else. -/
theorem hostDrive_next {p : UnitPort} {w : Byte} {s t : State} (h : (hostDrive p w s).outcome = .next t) :
    ∃ ports r, t = State.reply { s with ports := ports } r := by
  cases p with
  | qA => cases h; exact ⟨_, _, rfl⟩
  | pL => cases h; exact ⟨_, _, rfl⟩
  | uB => cases h; exact ⟨_, _, rfl⟩
  | xL =>
    simp only [hostDrive, Sys2Proof.decode, decodePort] at h
    split at h
    · rename_i i hi
      split at hi <;> cases hi
      cases h; exact ⟨_, _, rfl⟩
    · cases h

/-- A 32-bit value below 256 is its low byte widened. -/
theorem eq_setWidth_of_lt {v : BitVec 32} {b : Byte} (hv : v.toNat < 256) (h : v.setWidth 8 = b) :
    v = b.setWidth 32 := by
  subst h
  apply BitVec.eq_of_toNat_eq
  rw [BitVec.toNat_setWidth_of_le (by decide), BitVec.toNat_setWidth, Nat.mod_eq_of_lt hv]

/-- Everything an action of the host can do, with the action that does it. -/
theorem hostAct_effect {a : HostAction} {s t : State} (h : (hostAct Config.canvas a s).outcome = .next t) :
    HostEffect s a t := by
  cases a with
  | writeReg n v =>
    obtain ⟨hn, rfl⟩ | ⟨rfl, hv, hcmd⟩ := hostWriteReg_next h
    · exact .writeReg v hn
    · obtain ⟨hb, rfl⟩ | ⟨hb, rfl⟩ | rfl := writeCommand_next hcmd
      · rw [eq_setWidth_of_lt hv hb]; exact .encode
      · rw [eq_setWidth_of_lt hv hb]; exact .decode
      · exact .illegal v
  | readReg n =>
    simp only [hostAct] at h
    split at h <;> cases h
    exact .readReg n _
  | writePixel x y p =>
    simp only [hostAct, Canvas.hasPixel, Bool.and_eq_true, decide_eq_true_eq] at h
    split at h <;> cases h
    rename_i hp
    exact .writePixel p hp.1 hp.2
  | readPixel x y =>
    simp only [hostAct] at h
    split at h <;> cases h
    exact .readPixel x y _
  | writeByte k v =>
    simp only [hostAct, Canvas.hasByte, decide_eq_true_eq] at h
    split at h <;> cases h
    rename_i hk
    exact .writeByte v hk
  | readByte k =>
    simp only [hostAct] at h
    split at h <;> cases h
    exact .readByte k _
  | drive p w =>
    obtain ⟨ports, r, rfl⟩ := hostDrive_next h
    exact .drive p w ports r
  | reset => cases h; exact .reset

/-- Everything a step can do: the block goes on alone, or the host's next action takes effect. -/
theorem step_next_cases {s t : State} (h : step s = .next t) :
    (s.hostIn = [] ∧ idle Config.canvas s = .next t) ∨
    ∃ a rest, s.hostIn = a :: rest ∧ HostEffect { s with hostIn := rest } a t := by
  rw [step_eq_outcome, fetch] at h
  obtain ⟨hin, hf⟩ | ⟨a, rest, -, -, -, hf⟩ | ⟨a, rest, hin, -, hf⟩ := fetchOn_cases Config.canvas s <;> rw [hf] at h
  · exact .inl ⟨hin, h⟩
  · cases h
  · exact .inr ⟨a, rest, hin, hostAct_effect h⟩

/-! ### A step of an engine, case by case -/

theorem engineStep_of_seq_none {c : Canvas} {s : State} (h : s.seq = none) : engineStep c s = s := by
  simp only [engineStep, h]

theorem engineStep_of_lt {c : Canvas} {s : State} {q : Sequencer} (h : s.seq = some q) (hy : q.y.toNat < c.H) :
    engineStep c s = groupStep c q s := by
  simp only [engineStep, h, if_pos hy]

theorem engineStep_of_ge {c : Canvas} {s : State} {q : Sequencer} (h : s.seq = some q) (hy : c.H ≤ q.y.toNat) :
    engineStep c s = finish c q s := by
  simp only [engineStep, h, if_neg (Nat.not_lt.mpr hy)]

/-- R76, R20: the block left alone takes one step of its engine, which changes nothing if no command runs. -/
theorem idle_next {c : Canvas} {s t : State} (h : idle c s = .next t) : t = engineStep c s := by
  unfold idle at h
  split at h
  · rename_i hs
    cases h
    exact (engineStep_of_seq_none hs).symm
  · split at h <;> cases h
    rfl

/-! ### What the engines leave unchanged -/

/-- R60: a lane of the decoder changes the raster alone. -/
theorem storeLane_frame (c : Canvas) (x y : Nat) (l : Level) (s : State) :
    storeLane c x y l s = { s with rast := (storeLane c x y l s).rast } := by
  unfold storeLane
  split <;> rfl

/-- R60: a group of the decoder changes the raster alone, wherever the group is. -/
theorem storeGroup_frame (c : Canvas) (x y : Nat) (g : Levels) (s : State) :
    storeGroup c x y g s = { s with rast := (storeGroup c x y g s).rast } := by
  unfold storeGroup
  rw [storeLane_frame c (x + 3), storeLane_frame c (x + 2), storeLane_frame c (x + 1), storeLane_frame c x]

/-- R20, R60: a group step of DECODE changes the raster and moves the sequencer on. -/
theorem decodeGroup_frame (c : Canvas) (q : Sequencer) (s : State) :
    decodeGroup c q s = { s with rast := (decodeGroup c q s).rast, seq := (decodeGroup c q s).seq } := by
  unfold decodeGroup
  dsimp only
  rw [storeGroup_frame]

/-- No command but one of engine `e` runs. -/
def State.RunsOnly (e : Engine) (s : State) : Prop := ∀ q, s.seq = some q → q.engine = e

/-- What a command of engine `e` may not change: ENCODE the raster and its shape, DECODE the stream and its length. -/
def SameInput : Engine → State → State → Prop
  | .encoder, s, t => t.rast = s.rast ∧ t.rw = s.rw ∧ t.rh = s.rh
  | .decoder, s, t => t.strm = s.strm ∧ t.slen = s.slen

theorem SameInput.of_fields {e : Engine} {s t : State} (hrast : t.rast = s.rast) (hrw : t.rw = s.rw)
    (hrh : t.rh = s.rh) (hstrm : t.strm = s.strm) (hslen : t.slen = s.slen) : SameInput e s t := by
  cases e
  · exact ⟨hrast, hrw, hrh⟩
  · exact ⟨hstrm, hslen⟩

theorem SameInput.trans {e : Engine} {s t u : State} (h : SameInput e s t) (h' : SameInput e t u) :
    SameInput e s u := by
  cases e
  · obtain ⟨h1, h2, h3⟩ := h
    obtain ⟨h1', h2', h3'⟩ := h'
    exact ⟨h1'.trans h1, h2'.trans h2, h3'.trans h3⟩
  · obtain ⟨h1, h2⟩ := h
    obtain ⟨h1', h2'⟩ := h'
    exact ⟨h1'.trans h1, h2'.trans h2⟩

/-- R20: a step of an engine leaves the input of its command as it was. -/
theorem engineStep_sameInput {c : Canvas} {e : Engine} {s : State} (h : s.RunsOnly e) :
    SameInput e s (engineStep c s) := by
  obtain ⟨-, hs⟩ | ⟨q, hq, -, he, hs⟩ | ⟨q, hq, -, he, hs⟩ | ⟨q, hq, -, hs⟩ := engineStep_cases c s <;> rw [hs]
  · exact .of_fields rfl rfl rfl rfl rfl
  · obtain rfl : .encoder = e := he.symm.trans (h q hq)
    exact ⟨rfl, rfl, rfl⟩
  · obtain rfl : .decoder = e := he.symm.trans (h q hq)
    rw [decodeGroup_frame]
    exact ⟨rfl, rfl⟩
  · have he := h q hq
    cases e <;> simp only [finish, he]
    · exact ⟨rfl, rfl, rfl⟩
    · exact ⟨rfl, rfl⟩

/-- R20: the engine that runs is the one that was issued. -/
theorem engineStep_runsOnly {c : Canvas} {e : Engine} {s : State} (h : s.RunsOnly e) :
    (engineStep c s).RunsOnly e := by
  intro q' hq'
  obtain ⟨q, g, hq, -, rfl⟩ := engineStep_seq_some hq'
  rw [Sequencer.advance_engine]
  exact h q hq

theorem runEngine_sameInput {c : Canvas} {e : Engine} (n : Nat) {s : State} (h : s.RunsOnly e) :
    SameInput e s (runEngine c n s) := by
  induction n generalizing s with
  | zero => exact .of_fields rfl rfl rfl rfl rfl
  | succ n ih => exact (engineStep_sameInput h).trans (ih (engineStep_runsOnly h))

theorem State.issue_runsOnly (s : State) (e : Engine) : (s.issue e).RunsOnly e := by
  intro q hq
  cases hq
  rfl

/-- Everything a command of engine `e` issued in `s` can leave: its one error, or the run of its engine (R53, R60). -/
def CommandEnd (c : Canvas) (e : Engine) (s t : State) : Prop :=
  (∃ err, t = (s.issue e).raise err) ∨ t = runEngine c (c.N + 1) (s.issue e)

theorem encodeOn_commandEnd (c : Canvas) (s : State) : CommandEnd c .encoder s (encodeOn c s) := by
  unfold encodeOn
  dsimp only
  split
  · exact .inr rfl
  · exact .inl ⟨.shape, rfl⟩

theorem decodeOn_commandEnd (c : Canvas) (s : State) : CommandEnd c .decoder s (decodeOn c s) := by
  unfold decodeOn
  dsimp only
  split
  · exact .inr rfl
  · exact .inl ⟨.length, rfl⟩

/-- R53, R60: a command leaves its input as it was. -/
theorem CommandEnd.sameInput {c : Canvas} {e : Engine} {s t : State} (h : CommandEnd c e s t) : SameInput e s t := by
  obtain ⟨err, rfl⟩ | rfl := h
  · exact .of_fields rfl rfl rfl rfl rfl
  · have hissue : SameInput e s (s.issue e) := .of_fields rfl rfl rfl rfl rfl
    exact hissue.trans (runEngine_sameInput _ (s.issue_runsOnly e))

theorem runEngine_ports (c : Canvas) (n : Nat) (s : State) : (runEngine c n s).ports = s.ports := by
  induction n generalizing s with
  | zero => rfl
  | succ n ih => exact (ih _).trans (engineStep_host c s).1

/-- R42: a command leaves the unit ports as the host drives them. -/
theorem CommandEnd.ports {c : Canvas} {e : Engine} {s t : State} (h : CommandEnd c e s t) : t.ports = s.ports := by
  obtain ⟨err, rfl⟩ | rfl := h
  · rfl
  · exact runEngine_ports c _ (s.issue e)

/-! ### The sequencer -/

/-- R29: the index of a byte of the stream gives back its row and its group of the row. -/
theorem byteIndex_div_mod {c : Canvas} {x : Nat} (hx : x < c.W) (y : Nat) :
    byteIndex c x y / c.G = y ∧ byteIndex c x y % c.G = x / 4 :=
  (Nat.div_mod_unique (canvas_G_pos c)).mpr ⟨by rw [byteIndex, Nat.mul_comm, Nat.add_comm], canvas_group_lt hx⟩

/-- R20: counters in range stand at group `CUR` of the scan. -/
theorem Sequencer.position_of_inRange {c : Canvas} {q : Sequencer} (h : q.inRange c = true) :
    q.y.toNat = q.cur.toNat / c.G ∧ q.x.toNat = 4 * (q.cur.toNat % c.G) := by
  obtain ⟨-, hx, hx4, hcur, -⟩ := Sequencer.inRange_iff.mp h
  have hcur' : q.cur.toNat = byteIndex c q.x.toNat q.y.toNat := hcur
  obtain ⟨hrow, hgroup⟩ := byteIndex_div_mod hx q.y.toNat
  rw [hcur', hrow, hgroup]
  exact ⟨rfl, by omega⟩

/-- The command of engine `e` runs and has taken `n` group steps. -/
def State.RunsAt (c : Canvas) (e : Engine) (n : Nat) (s : State) : Prop :=
  s.status = statusIssued ∧ ∃ q, s.seq = some q ∧ q.engine = e ∧ q.cur.toNat = n ∧ q.inRange c = true

theorem State.issue_runsAt (c : Canvas) (s : State) (e : Engine) : (s.issue e).RunsAt c e 0 :=
  ⟨rfl, _, rfl, rfl, rfl, Sequencer.start_inRange c e⟩

/-- R20: a group step keeps `STATUS` and moves the counters on. -/
theorem groupStep_next (c : Canvas) (q : Sequencer) (s : State) :
    (groupStep c q s).status = s.status ∧
    ∃ g, (groupStep c q s).seq = some (Sequencer.advance c { q with gbuf := g }) := by
  unfold groupStep
  split
  · exact ⟨rfl, _, rfl⟩
  · rw [decodeGroup_frame]
    exact ⟨rfl, _, rfl⟩

/-- R20: below group `N` a step of the engine goes on to the next group. -/
theorem State.RunsAt.engineStep {c : Canvas} {e : Engine} {n : Nat} {s : State} (h : s.RunsAt c e n) (hn : n < c.N) :
    (engineStep c s).RunsAt c e (n + 1) := by
  obtain ⟨hst, q, hq, he, rfl, hr⟩ := h
  have hy : q.y.toNat < c.H := by
    rw [(Sequencer.position_of_inRange hr).1]
    exact Nat.div_lt_of_lt_mul hn
  obtain ⟨hst', g, hq'⟩ := groupStep_next c q s
  have hr' : Sequencer.inRange c { q with gbuf := g } = true := hr
  obtain ⟨hcur, -, -⟩ := Sequencer.advance_toNat (q := { q with gbuf := g }) hy hn
  rw [engineStep_of_lt hq hy]
  exact ⟨hst'.trans hst, _, hq', (Sequencer.advance_engine ..).trans he, hcur, Sequencer.advance_inRange hr' hy⟩

/-- R20, R83: after `n` steps, up to `N`, a command stands at group `n`. -/
theorem runEngine_runsAt (c : Canvas) (e : Engine) (s : State) {n : Nat} (hn : n ≤ c.N) :
    (runEngine c n (s.issue e)).RunsAt c e n := by
  induction n with
  | zero => exact s.issue_runsAt c e
  | succ n ih =>
    rw [runEngine_succ]
    exact (ih (Nat.le_of_succ_le hn)).engineStep hn

/-- R71: at group `N` a step of the engine completes the command. -/
theorem State.RunsAt.engineStep_settled {c : Canvas} {e : Engine} {s : State} (h : s.RunsAt c e c.N) :
    State.Settled (Machine.engineStep c s) := by
  obtain ⟨-, q, hq, -, hcur, hr⟩ := h
  have hy : q.y.toNat = c.H := by
    rw [(Sequencer.position_of_inRange hr).1, hcur]
    exact Nat.mul_div_cancel_left c.H (canvas_G_pos c)
  rw [engineStep_of_ge hq hy.ge]
  unfold finish
  split
  · exact ⟨State.complete_busy _, rfl⟩
  · exact ⟨State.complete_busy _, rfl⟩

/-- R18, R71: a command leaves no command running. -/
theorem CommandEnd.settled {c : Canvas} {e : Engine} {s t : State} (h : CommandEnd c e s t) : State.Settled t := by
  obtain ⟨err, rfl⟩ | rfl := h
  · exact ⟨State.raise_busy _ err, rfl⟩
  · rw [runEngine_succ]
    exact (runEngine_runsAt c e s le_rfl).engineStep_settled

/-! ### The invariant -/

/-- The invariant speaks of the buffers, `STATUS` and the sequencer alone. -/
theorem State.Inv.congr {c : Canvas} {s t : State} (h : State.Inv c s) (hr : t.rast = s.rast) (hm : t.strm = s.strm)
    (hs : t.status = s.status) (hq : t.seq = s.seq) : State.Inv c t where
  rast_wf := hr ▸ h.rast_wf
  strm_wf := hm ▸ h.strm_wf
  status_legal := hs ▸ h.status_legal
  busy_iff := by rw [State.busy_congr hs, hq]; exact h.busy_iff
  seq_inRange := hq ▸ h.seq_inRange

/-- R18: a state in which a command has ended with some code has the invariant if its buffers do. -/
theorem State.Inv.of_ended {c : Canvas} {t : State} (hr : Memory.wf (c.W * c.H) t.rast = true)
    (hm : Memory.wf c.N t.strm = true) (e : Err) (hs : t.status = statusCompleted e) (hq : t.seq = none) :
    State.Inv c t where
  rast_wf := hr
  strm_wf := hm
  status_legal := .inr (.inr ⟨e, hs⟩)
  busy_iff := by rw [State.busy, hs, hq]; exact statusCompleted_busy e
  seq_inRange := by simp [hq]

theorem State.Inv.raise {c : Canvas} {s : State} (h : State.Inv c s) (e : Err) : State.Inv c (s.raise e) :=
  .of_ended h.rast_wf h.strm_wf e rfl rfl

theorem State.Inv.issue {c : Canvas} {s : State} (h : State.Inv c s) (e : Engine) : State.Inv c (s.issue e) where
  rast_wf := h.rast_wf
  strm_wf := h.strm_wf
  status_legal := .inr (.inl rfl)
  busy_iff := State.issue_busy s e
  seq_inRange := fun _ hq => Option.some.inj hq ▸ Sequencer.start_inRange c e

theorem State.Inv.setByte {c : Canvas} {s : State} (h : State.Inv c s) {k : Nat} (hk : k < c.N) (v : Byte) :
    State.Inv c (s.setByte k v) :=
  { h with strm_wf := Memory.wf_write h.strm_wf hk v }

theorem State.Inv.setPixel {c : Canvas} {s : State} (h : State.Inv c s) {x y : Nat} (hx : x < c.W) (hy : y < c.H)
    (p : Pixel) : State.Inv c (s.setPixel c x y p) :=
  { h with rast_wf := Memory.wf_write h.rast_wf (pixelIndex_lt hx hy) p }

/-- The reset values have the invariant (R24). -/
theorem State.Inv.of_reset {c : Canvas} {t : State} (hr : t.rast = []) (hm : t.strm = []) (hs : t.status = 0)
    (hq : t.seq = none) : State.Inv c t where
  rast_wf := by rw [hr]; rfl
  strm_wf := by rw [hm]; rfl
  status_legal := .inl hs
  busy_iff := by rw [State.busy, hs, hq]; rfl
  seq_inRange := by simp [hq]

/-- R20, R31: a group step at a group of the canvas keeps both buffers in canonical form. -/
theorem groupStep_wf {c : Canvas} {q : Sequencer} {s : State} (hrast : Memory.wf (c.W * c.H) s.rast = true)
    (hstrm : Memory.wf c.N s.strm = true) (hr : q.inRange c = true) (hy : q.y.toNat < c.H) :
    Memory.wf (c.W * c.H) (groupStep c q s).rast = true ∧ Memory.wf c.N (groupStep c q s).strm = true := by
  obtain ⟨-, hx, hx4, hcur, -⟩ := Sequencer.inRange_iff.mp hr
  unfold groupStep
  split
  · exact ⟨hrast, Memory.wf_write hstrm (hcur ▸ byteIndex_lt hx hy) _⟩
  · refine ⟨(storeGroup_spec hrast hy hx4 _).1, ?_⟩
    rw [decodeGroup_frame]
    exact hstrm

theorem State.Inv.groupStep {c : Canvas} {q : Sequencer} {s : State} (h : State.Inv c s) (hq : s.seq = some q)
    (hy : q.y.toNat < c.H) : State.Inv c (groupStep c q s) := by
  have hr := h.seq_inRange q hq
  obtain ⟨hst, g, hq'⟩ := groupStep_next c q s
  obtain ⟨hrast, hstrm⟩ := groupStep_wf h.rast_wf h.strm_wf hr hy
  have hr' : Sequencer.inRange c { q with gbuf := g } = true := hr
  refine ⟨hrast, hstrm, hst ▸ h.status_legal, ?_, fun q' h' => ?_⟩
  · rw [State.busy_congr hst, h.busy_iff, hq, hq']
    rfl
  · rw [← Option.some.inj (hq'.symm.trans h')]
    exact Sequencer.advance_inRange hr' hy

theorem State.Inv.finish {c : Canvas} {s : State} (h : State.Inv c s) (q : Sequencer) :
    State.Inv c (finish c q s) := by
  unfold Machine.finish
  split <;> exact .of_ended h.rast_wf h.strm_wf .none rfl rfl

/-- R20: every step of an engine keeps the invariant. -/
theorem State.Inv.engineStep {c : Canvas} {s : State} (h : State.Inv c s) : State.Inv c (engineStep c s) := by
  cases hq : s.seq with
  | none => rwa [engineStep_of_seq_none hq]
  | some q =>
    obtain hy | hy := Nat.lt_or_ge q.y.toNat c.H
    · rw [engineStep_of_lt hq hy]
      exact h.groupStep hq hy
    · rw [engineStep_of_ge hq hy]
      exact h.finish q

theorem State.Inv.runEngine {c : Canvas} (n : Nat) {s : State} (h : State.Inv c s) :
    State.Inv c (runEngine c n s) := by
  induction n generalizing s with
  | zero => exact h
  | succ n ih => exact ih h.engineStep

/-- R6: a whole command keeps the invariant. -/
theorem CommandEnd.inv {c : Canvas} {e : Engine} {s t : State} (hend : CommandEnd c e s t) (h : State.Inv c s) :
    State.Inv c t := by
  obtain ⟨err, rfl⟩ | rfl := hend
  · exact (h.issue e).raise err
  · exact (h.issue e).runEngine _

/-- Every effect of an action of the host keeps the invariant. -/
theorem HostEffect.inv {s t : State} {a : HostAction} (ht : HostEffect s a t) (h : State.Inv Config.canvas s) :
    State.Inv Config.canvas t := by
  cases ht with
  | readReg | readPixel | readByte | drive => exact h.congr rfl rfl rfl rfl
  | writePixel p hx hy => exact h.setPixel hx hy p
  | writeByte v hk => exact h.setByte hk v
  | writeReg v hn => exact h.congr (by simp) (by simp) (by simp) (by simp)
  | encode => exact (encodeOn_commandEnd _ s).inv h
  | decode => exact (decodeOn_commandEnd _ s).inv h
  | illegal v => exact h.raise .illegal
  | reset => exact .of_reset rfl rfl rfl rfl

/-- Settles O53: a step is a step of the engine or one effect of the host, and each keeps the invariant. -/
theorem everyStepKeepsTheInvariant : Obligations.EveryStepKeepsTheInvariant := by
  intro s t h hstep
  obtain ⟨-, hidle⟩ | ⟨a, rest, -, ht⟩ := step_next_cases hstep
  · rw [idle_next hidle]
    exact h.engineStep
  · exact ht.inv (h.congr rfl rfl rfl rfl)

/-- Settles O52: the reset values have the invariant on every canvas. -/
theorem invariantAtReset : Obligations.InvariantAtReset := .of_reset rfl rfl rfl rfl

/-! ### What each event changes -/

/-- R18: from a state with no command running every effect of the host leaves none running. -/
theorem HostEffect.settled {s t : State} {a : HostAction} (ht : HostEffect s a t) (h : State.Settled s) :
    State.Settled t := by
  obtain ⟨hb, hq⟩ := h
  cases ht with
  | readReg | readPixel | readByte | drive | writePixel | writeByte => exact ⟨hb, hq⟩
  | writeReg v hn => exact ⟨(State.busy_congr (by simp)).trans hb, by simpa using hq⟩
  | encode => exact (encodeOn_commandEnd _ s).settled
  | decode => exact (decodeOn_commandEnd _ s).settled
  | illegal v => exact ⟨State.raise_busy s .illegal, rfl⟩
  | reset => exact ⟨by simp [State.busy], rfl⟩

/-- Settles O51: a command issued by the host has ended, and a block that waits stays as it is. -/
theorem noCommandIsLeftRunning : Obligations.NoCommandIsLeftRunning := by
  intro s t h hstep
  obtain ⟨-, hidle⟩ | ⟨a, rest, -, ht⟩ := step_next_cases hstep
  · rwa [idle_next hidle, engineStep_of_seq_none h.2]
  · exact ht.settled h

/-- R42: only a driven port changes what the ports carry. -/
theorem HostEffect.ports {s t : State} {a : HostAction} (ht : HostEffect s a t) (ha : ∀ p w, a ≠ .drive p w) :
    t.ports = s.ports := by
  cases ht with
  | readReg | readPixel | readByte | writePixel | writeByte | illegal | reset => rfl
  | drive p w => exact absurd rfl (ha p w)
  | writeReg v hn => exact State.regWrite_ports s _ v
  | encode => exact (encodeOn_commandEnd _ s).ports
  | decode => exact (decodeOn_commandEnd _ s).ports

/-- Settles O14: the ports of every next state but a driven one's are the same, and the outputs are functions of them. -/
theorem onlyDrivingChangesPorts : Obligations.OnlyDrivingChangesPorts := by
  intro s t hstep hdrive
  have hports : t.ports = s.ports := by
    obtain ⟨-, hidle⟩ | ⟨a, rest, hin, ht⟩ := step_next_cases hstep
    · rw [idle_next hidle]
      exact (engineStep_host Config.canvas s).1
    · exact ht.ports fun p w ha => hdrive p w rest (ha ▸ hin)
  exact ⟨hports, congrArg _ hports, congrArg _ hports, congrArg _ hports, congrArg _ hports⟩

/-- With no command running, a step waits or is one effect of the host. -/
theorem step_seq_none_cases {s t : State} (hq : s.seq = none) (h : step s = .next t) :
    t = s ∨ ∃ a rest, s.hostIn = a :: rest ∧ HostEffect { s with hostIn := rest } a t := by
  refine (step_next_cases h).imp_left fun ⟨_, hidle⟩ => ?_
  rw [idle_next hidle, engineStep_of_seq_none hq]

/-! ### Which actions change a register or a buffer -/

section
variable {s t : State} {a : HostAction} (ht : HostEffect s a t)
include ht

theorem HostEffect.status_event (h : t.status ≠ s.status) : (∃ v, a = .writeReg 0 v) ∨ a = .reset := by
  cases ht with
  | encode | decode | illegal => exact .inl ⟨_, rfl⟩
  | reset => exact .inr rfl
  | writeReg v hn => exact absurd (State.regWrite_status s _ v) h
  | _ => exact absurd rfl h

theorem HostEffect.strm_event (h : t.strm ≠ s.strm) :
    (∃ k v, a = .writeByte k v) ∨ a = .writeReg 0 0x01 ∨ a = .reset := by
  cases ht with
  | writeByte v hk => exact .inl ⟨_, v, rfl⟩
  | encode => exact .inr (.inl rfl)
  | reset => exact .inr (.inr rfl)
  | decode => exact absurd (decodeOn_commandEnd _ s).sameInput.1 h
  | writeReg v hn => exact absurd (State.regWrite_strm s _ v) h
  | _ => exact absurd rfl h

theorem HostEffect.rast_event (h : t.rast ≠ s.rast) :
    (∃ x y p, a = .writePixel x y p) ∨ a = .writeReg 0 0x02 ∨ a = .reset := by
  cases ht with
  | writePixel p hx hy => exact .inl ⟨_, _, p, rfl⟩
  | decode => exact .inr (.inl rfl)
  | reset => exact .inr (.inr rfl)
  | encode => exact absurd (encodeOn_commandEnd _ s).sameInput.1 h
  | writeReg v hn => exact absurd (State.regWrite_rast s _ v) h
  | _ => exact absurd rfl h

theorem HostEffect.rw_event (h : t.rw ≠ s.rw) :
    (∃ v, a = .writeReg 2 v) ∨ a = .writeReg 0 0x02 ∨ a = .reset := by
  cases ht with
  | @writeReg n v hn =>
    by_cases hn2 : n = 2
    · exact .inl ⟨v, by rw [hn2]⟩
    · exact absurd (by rw [State.regWrite_rw, if_neg hn2]) h
  | decode => exact .inr (.inl rfl)
  | reset => exact .inr (.inr rfl)
  | encode => exact absurd (encodeOn_commandEnd _ s).sameInput.2.1 h
  | _ => exact absurd rfl h

theorem HostEffect.rh_event (h : t.rh ≠ s.rh) :
    (∃ v, a = .writeReg 3 v) ∨ a = .writeReg 0 0x02 ∨ a = .reset := by
  cases ht with
  | @writeReg n v hn =>
    by_cases hn3 : n = 3
    · exact .inl ⟨v, by rw [hn3]⟩
    · exact absurd (by rw [State.regWrite_rh, if_neg hn3]) h
  | decode => exact .inr (.inl rfl)
  | reset => exact .inr (.inr rfl)
  | encode => exact absurd (encodeOn_commandEnd _ s).sameInput.2.2 h
  | _ => exact absurd rfl h

theorem HostEffect.slen_event (h : t.slen ≠ s.slen) :
    (∃ v, a = .writeReg 4 v) ∨ a = .writeReg 0 0x01 ∨ a = .reset := by
  cases ht with
  | @writeReg n v hn =>
    by_cases hn4 : n = 4
    · exact .inl ⟨v, by rw [hn4]⟩
    · exact absurd (by rw [State.regWrite_slen, if_neg hn4]) h
  | encode => exact .inr (.inl rfl)
  | reset => exact .inr (.inr rfl)
  | decode => exact absurd (decodeOn_commandEnd _ s).sameInput.2 h
  | _ => exact absurd rfl h

end

/-- Settles O49: a waiting block changes nothing, and each register or buffer has its own events. -/
theorem onlyTheseEventsWrite : Obligations.OnlyTheseEventsWrite := by
  intro s t hq hstep
  obtain rfl | ⟨a, rest, hin, ht⟩ := step_seq_none_cases hq hstep
  · exact ⟨absurd rfl, absurd rfl, absurd rfl⟩
  rw [hin]
  refine ⟨fun h => ⟨rest, ?_⟩, fun h => ⟨rest, ?_⟩, fun h => ⟨rest, ?_⟩⟩
  · simpa using ht.status_event h
  · simpa using ht.strm_event h
  · simpa using ht.rast_event h

/-- Settles O50: the same argument for the descriptors. -/
theorem onlyTheseEventsWriteDescriptors : Obligations.OnlyTheseEventsWriteDescriptors := by
  intro s t hq hstep
  obtain rfl | ⟨a, rest, hin, ht⟩ := step_seq_none_cases hq hstep
  · exact ⟨absurd rfl, absurd rfl, absurd rfl⟩
  rw [hin]
  refine ⟨fun h => ⟨rest, ?_⟩, fun h => ⟨rest, ?_⟩, fun h => ⟨rest, ?_⟩⟩
  · simpa using ht.rw_event h
  · simpa using ht.rh_event h
  · simpa using ht.slen_event h

/-! ### The scan and the group steps -/

/-- Settles O29: after `n` steps the counters are in range with `CUR = n`, which fixes `Y` and `X`. -/
theorem sequencerFollowsTheScan : Obligations.SequencerFollowsTheScan := by
  intro c e s n hn
  obtain ⟨hst, q, hq, he, rfl, hr⟩ := runEngine_runsAt c e s hn
  obtain ⟨-, -, -, hcur, -⟩ := Sequencer.inRange_iff.mp hr
  obtain ⟨hy, hx⟩ := Sequencer.position_of_inRange hr
  exact ⟨q, hq, he, rfl, hy, hx, hcur, by rw [State.busy, hst]; exact statusIssued_busy⟩

/-- R29: two positions of the canvas in one byte of the stream are in one group of one row. -/
theorem byteIndex_inj {c : Canvas} {x y x' y' : Nat} (hx : x < c.W) (hx' : x' < c.W) :
    byteIndex c x y = byteIndex c x' y' ↔ x / 4 = x' / 4 ∧ y = y' := by
  refine ⟨fun h => ?_, fun ⟨hg, hy⟩ => by rw [byteIndex, byteIndex, hg, hy]⟩
  obtain ⟨hy, hg⟩ := byteIndex_div_mod hx y
  obtain ⟨hy', hg'⟩ := byteIndex_div_mod hx' y'
  exact ⟨by rw [← hg, ← hg', h], by rw [← hy, ← hy', h]⟩

/-- R59, R26: level `i` of an unpacked byte is lane `i` of the byte. -/
theorem laneOf_unpack4 (b : Byte) {i : Nat} (hi : i < 4) : laneOf (unpack4 b) i = lane b i := by
  have hmask : ∀ n : Nat, n % 4 &&& 3 = n % 4 := fun n =>
    (Nat.and_two_pow_sub_one_eq_mod (n % 4) 2).trans (Nat.mod_mod n 4)
  apply BitVec.eq_of_toNat_eq
  interval_cases i <;> simp [laneOf, unpack4, lane, hmask]

/-- R31, R53: every byte of the stream after a group step of ENCODE. -/
theorem encodeGroup_byteAt {c : Canvas} {s : State} (h : Memory.wf c.N s.strm = true) (q : Sequencer) (k : Nat) :
    (encodeGroup c q s).byteAt k =
      if q.cur.toNat = k then encGroup c s q.x.toNat q.y.toNat else s.byteAt k :=
  State.byteAt_setByte h _ k _

/-- R60: every pixel after a group step of DECODE. -/
theorem decodeGroup_pixelAt {c : Canvas} {q : Sequencer} {s : State} (h : Memory.wf (c.W * c.H) s.rast = true)
    (hr : q.inRange c = true) (hy : q.y.toNat < c.H) (x y : Nat) (hx : x < c.W) :
    (decodeGroup c q s).pixelAt c x y = if byteIndex c x y = q.cur.toNat
      then pixelOfLevel (lane (s.byteAt q.cur.toNat) (x % 4)) else s.pixelAt c x y := by
  obtain ⟨-, hqx, hqx4, hcur, -⟩ := Sequencer.inRange_iff.mp hr
  have hiff : byteIndex c x y = q.cur.toNat ↔ x / 4 = q.x.toNat / 4 ∧ y = q.y.toNat := by
    rw [hcur]
    exact byteIndex_inj hx hqx
  simp only [hiff, ← laneOf_unpack4 _ (Nat.mod_lt x (by decide : 4 > 0))]
  exact (storeGroup_spec h hy hqx4 (unpack4 (s.byteAt q.cur.toNat))).2.2 x y hx

/-- Settles O31: the byte written is that of `CUR`, and the pixels written are those whose byte has index `CUR`. -/
theorem groupStepWritesItsGroupOnly : Obligations.GroupStepWritesItsGroupOnly := by
  intro c s q h hq hy
  have hpixel := decodeGroup_pixelAt h.rast_wf (h.seq_inRange q hq) hy
  refine ⟨fun k hk => ?_, rfl, ?_, ?_, fun x y hx _ hin => ?_, fun x y hx _ hout => ?_⟩
  · rw [encodeGroup_byteAt h.strm_wf, if_neg hk.symm]
  · rw [encodeGroup_byteAt h.strm_wf, if_pos rfl]
  · rw [decodeGroup_frame]
  · rw [hpixel x y hx, if_pos hin]
  · rw [hpixel x y hx, if_neg hout]

/-- R52: `GBUF[i]` as the encoder fills it is the level of lane `i`. -/
theorem laneOf_loadGroup (c : Canvas) (s : State) (x y : Nat) {i : Nat} (hi : i < 4) :
    laneOf (loadGroup c s x y) i = groupLevel c s x y i := by
  interval_cases i <;> rfl

/-- Settles O32: neither group step reads the old `GBUF`, and a lane beyond `W` is padding. -/
theorem groupBufferIsCleared : Obligations.GroupBufferIsCleared := by
  intro c q g s
  refine ⟨rfl, rfl, fun i hi hW => ?_⟩
  rw [laneOf_loadGroup c s _ _ hi, groupLevel, if_neg (Nat.not_lt.mpr hW)]

/-! ### Registers and reset -/

/-- R16: a number above 4 names no register. -/
theorem registerWidth_eq_none {n : Nat} (hn : 4 < n) : registerWidth n = none := by
  obtain ⟨m, rfl⟩ := Nat.exists_eq_add_of_le' (Nat.succ_le_of_lt hn)
  rfl

theorem State.regRead_eq_none (s : State) {n : Nat} (hn : 4 < n) : s.regRead n = none := by
  obtain ⟨m, rfl⟩ := Nat.exists_eq_add_of_le' (Nat.succ_le_of_lt hn)
  rfl

/-- R18: a read of `STATUS` returns bits 3:0, and 0 in every other bit of the word. -/
theorem State.statusRead_getLsbD (s : State) (i : Nat) :
    (s.statusRead.setWidth 32).getLsbD i = (decide (i < 4) && s.status.getLsbD i) := by
  obtain hi | hi := Nat.lt_or_ge i 8
  · unfold State.statusRead
    rw [BitVec.getLsbD_setWidth, BitVec.getLsbD_and]
    interval_cases i <;> simp
  · simp [BitVec.getLsbD_setWidth, BitVec.getLsbD_of_ge _ i hi]

/-- R18: the fields of what a read of `STATUS` returns. -/
theorem State.statusRead_fields (s : State) :
    (s.statusRead.setWidth 32).getLsbD 0 = s.busy ∧ (s.statusRead.setWidth 32).getLsbD 1 = s.done ∧
    (s.statusRead.setWidth 32).extractLsb' 2 2 = s.err ∧ (s.statusRead.setWidth 32).extractLsb' 4 28 = 0 := by
  refine ⟨by rw [s.statusRead_getLsbD]; rfl, by rw [s.statusRead_getLsbD]; rfl, ?_, ?_⟩
  · refine BitVec.eq_of_getLsbD_eq fun i hi => ?_
    have hi4 : 2 + i < 4 := by omega
    simp only [State.err, BitVec.getLsbD_extractLsb', s.statusRead_getLsbD, decide_eq_true hi4, Bool.true_and]
  · refine BitVec.eq_of_getLsbD_eq fun i _ => ?_
    have hi4 : ¬4 + i < 4 := by omega
    simp [BitVec.getLsbD_extractLsb', s.statusRead_getLsbD, hi4]

/-- R16: a host write of a value of the register's width to register 1 to 4. -/
theorem hostWriteReg_of_lt {n w : Nat} {v : BitVec 32} (hn : n ≠ 0) (hw : registerWidth n = some w)
    (hv : v.toNat < 2 ^ w) (s : State) : hostWriteReg n v s = .done (.next (s.regWrite n v)) := by
  simp only [hostWriteReg, fitsRegister, hw, decide_eq_true hv, if_true, if_neg hn]

/-- Settles O40: a read is answered from the state it finds; above 4 there is no register. -/
theorem registerReads : Obligations.RegisterReads := by
  intro s n rest hb hin
  have hstep := step_settled hb hin
  refine ⟨?_, ?_, ?_, ?_, ?_, fun hn => ?_⟩
  · rintro rfl; exact hstep
  · rintro rfl; exact ⟨_, hstep, s.statusRead_fields⟩
  · rintro rfl; exact hstep
  · rintro rfl; exact hstep
  · rintro rfl; exact hstep
  · rw [hstep, hostAct, State.regRead_eq_none _ hn]
    rfl

/-- Settles O41: a value of the register's width fits and is stored whole; above 4 there is no register. -/
theorem registerWrites : Obligations.RegisterWrites := by
  intro s rest hb
  refine ⟨fun v hin => ?_, fun v hin => ?_, fun v hin => ?_, fun v hin => ?_, fun n v hn hin => ?_⟩ <;>
    rw [step_settled hb hin, hostAct]
  · have hv : (v.setWidth 32).toNat < 2 ^ 8 := by
      rw [BitVec.toNat_setWidth_of_le (by decide)]
      exact v.isLt
    rw [hostWriteReg_of_lt (by decide) rfl hv]
    rfl
  · rw [hostWriteReg_shape (.inl rfl)]
    simp [Fetched.outcome, State.regWrite]
  · rw [hostWriteReg_shape (.inr rfl)]
    simp [Fetched.outcome, State.regWrite]
  · rw [hostWriteReg_of_lt (by decide) rfl v.isLt]
    rfl
  · rw [hostWriteReg, registerWidth_eq_none hn]
    rfl

/-- Settles O47: by evaluation at the reset state, where both checks fail before any group step. -/
theorem resetState : Obligations.ResetState := by
  refine ⟨by decide, by decide, by decide, by decide, rfl, rfl, rfl, rfl, rfl, ?_, ?_⟩
  · rfl
  · rfl

end Sys2Proof.Machine

/-!
PROOFS, family 20_memory.md: where pixels and groups stand (O5, O6), the host's accesses to the buffers between commands
(O42, O43, O44) and while a command runs (O45), and that no state with the invariant faults (O54). What each buffer access
answers is said once, in `step_writeByte` and its like; while `BUSY = 1` the step is decided by `allowedWhileBusy`.
-/

namespace Sys2Proof.Machine

/-! ### Layout -/

/-- A field above the lowest byte of a word is a field of the bytes before that one. -/
theorem extractLsb'_append_byte {n : Nat} (hi : BitVec n) (lo : Byte) (start : Nat) :
    (hi ++ lo).extractLsb' (start + 8) 8 = hi.extractLsb' start 8 :=
  BitVec.extractLsb'_append_eq_of_le (Nat.le_add_left 8 start)

/-- Settles O5: a field is read by passing over the bytes below it, and a pixel is its four components. -/
theorem pixelWordLayout : Obligations.PixelWordLayout := by
  intro p
  have hr : (pixelWord p).extractLsb' 24 8 = p.r :=
    (extractLsb'_append_byte _ _ 16).trans <| (extractLsb'_append_byte _ _ 8).trans BitVec.extractLsb'_append_eq_left
  have hg : (pixelWord p).extractLsb' 16 8 = p.g :=
    (extractLsb'_append_byte _ _ 8).trans <| (extractLsb'_append_byte _ _ 0).trans BitVec.extractLsb'_append_eq_right
  have hb : (pixelWord p).extractLsb' 8 8 = p.b :=
    (extractLsb'_append_byte _ _ 0).trans BitVec.extractLsb'_append_eq_right
  have ha : (pixelWord p).extractLsb' 0 8 = p.a := BitVec.extractLsb'_append_eq_right
  exact ⟨hr, hg, hb, ha, by rw [pixelOfWord, hr, hg, hb, ha]⟩

/-- Settles O6: a pixel's byte determines its row and its group, as quotient and remainder by `G`. -/
theorem groupsNeverShareAByte : Obligations.GroupsNeverShareAByte := fun _ _ _ _ _ hx hy hx' _ =>
  ⟨rfl, byteIndex_lt hx hy, (byteIndex_inj hx hx').trans and_comm⟩

/-! ### The host's accesses to the buffers between commands -/

theorem hasPixel_iff {c : Canvas} {x y : Nat} : c.hasPixel x y = true ↔ x < c.W ∧ y < c.H := by
  simp only [Canvas.hasPixel, Bool.and_eq_true, decide_eq_true_eq]

theorem hasByte_iff {c : Canvas} {k : Nat} : c.hasByte k = true ↔ k < c.N := decide_eq_true_iff

/-- An answer of the host port under a guard is the guarded outcome. -/
theorem Fetched.outcome_ite (p : Prop) [Decidable p] (t : State) (r : Refusal) :
    (if p then Fetched.done (.next t) else .done (.refused r)).outcome = if p then .next t else .refused r :=
  apply_ite Fetched.outcome p _ _

section
variable {s : State} {rest : List HostAction} (hb : s.busy = false)
include hb

/-- R31, R34: a host write of a byte of the stream. -/
theorem step_writeByte {k : Nat} {v : Byte} (hin : s.hostIn = .writeByte k v :: rest) :
    step s = if k < Config.canvas.N then .next (State.setByte { s with hostIn := rest } k v)
      else .refused .noSuchLocation := by
  simp only [step_settled hb hin, hostAct, hasByte_iff, Fetched.outcome_ite]

/-- R32, R34: a host read of a byte of the stream. -/
theorem step_readByte {k : Nat} (hin : s.hostIn = .readByte k :: rest) :
    step s = if k < Config.canvas.N then .next (State.reply { s with hostIn := rest } (.byte (s.byteAt k)))
      else .refused .noSuchLocation := by
  simp only [step_settled hb hin, hostAct, hasByte_iff, Fetched.outcome_ite]
  rfl

/-- R31, R34: a host write of a pixel. -/
theorem step_writePixel {x y : Nat} {p : Pixel} (hin : s.hostIn = .writePixel x y p :: rest) :
    step s = if x < Config.canvas.W ∧ y < Config.canvas.H
      then .next (State.setPixel Config.canvas { s with hostIn := rest } x y p) else .refused .noSuchLocation := by
  simp only [step_settled hb hin, hostAct, hasPixel_iff, Fetched.outcome_ite]

/-- R32, R34: a host read of a pixel. -/
theorem step_readPixel {x y : Nat} (hin : s.hostIn = .readPixel x y :: rest) :
    step s = if x < Config.canvas.W ∧ y < Config.canvas.H
      then .next (State.reply { s with hostIn := rest } (.pixel (s.pixelAt Config.canvas x y)))
      else .refused .noSuchLocation := by
  simp only [step_settled hb hin, hostAct, hasPixel_iff, Fetched.outcome_ite]
  rfl

end

/-- Settles O42: inside the ranges the write takes effect, and reads after it are those of the buffer laws. -/
theorem hostWriteThenRead : Obligations.HostWriteThenRead := by
  intro s rest h hb
  -- the invariant does not speak of the host's pending actions
  have hstrm : Memory.wf Config.canvas.N { s with hostIn := rest }.strm = true := h.strm_wf
  have hrast : Memory.wf (Config.canvas.W * Config.canvas.H) { s with hostIn := rest }.rast = true := h.rast_wf
  refine ⟨fun k v hk hin => ⟨_, (step_writeByte hb hin).trans (if_pos hk), ?_, fun j hj => ?_, rfl⟩,
    fun x y p hx hy hin => ⟨_, (step_writePixel hb hin).trans (if_pos ⟨hx, hy⟩), ?_, fun x' y' hx' hy' hne => ?_, rfl⟩⟩
  · rw [State.byteAt_setByte hstrm, if_pos rfl]
  · rw [State.byteAt_setByte hstrm, if_neg hj.symm]
    rfl
  · rw [State.pixelAt_setPixel hrast hx hx, if_pos ⟨rfl, rfl⟩]
  · rw [State.pixelAt_setPixel hrast hx hx', if_neg (by omega)]
    rfl

/-- Settles O43: inside the ranges a read only adds its reply. -/
theorem hostReadsHaveNoSideEffect : Obligations.HostReadsHaveNoSideEffect := fun _ _ hb =>
  ⟨fun _ hk hin => (step_readByte hb hin).trans (if_pos hk),
    fun _ _ hx hy hin => (step_readPixel hb hin).trans (if_pos ⟨hx, hy⟩)⟩

/-- Settles O44: outside the ranges every access takes its refusing branch. -/
theorem outOfRangeAccessIsRefused : Obligations.OutOfRangeAccessIsRefused := by
  intro s rest hb
  have hbyte : ∀ k, 19200 ≤ k → ¬k < Config.canvas.N := fun _ => Nat.not_lt.mpr
  have hpixel : ∀ x y, 320 ≤ x ∨ 240 ≤ y → ¬(x < Config.canvas.W ∧ y < Config.canvas.H) := fun _ _ hout hin =>
    hout.elim (Nat.not_le.mpr hin.1) (Nat.not_le.mpr hin.2)
  refine ⟨fun k v hk hin => ?_, fun k hk hin => ?_, fun x y p hout hin => ?_, fun x y hout hin => ?_⟩
  · rw [step_writeByte hb hin, if_neg (hbyte k hk)]
  · rw [step_readByte hb hin, if_neg (hbyte k hk)]
  · rw [step_writePixel hb hin, if_neg (hpixel x y hout)]
  · rw [step_readPixel hb hin, if_neg (hpixel x y hout)]

/-! ### Accesses while a command runs -/

/-- R38, U5: while a command runs an action that is not allowed then has no meaning. -/
theorem step_not_allowed {s : State} {a : HostAction} {rest : List HostAction} (hb : s.busy = true)
    (hin : s.hostIn = a :: rest) (ha : allowedWhileBusy a = false) : step s = .refused .accessWhileBusy := by
  simp only [step, fetch, fetchOn, hin, hb, ha, Bool.not_false, Bool.and_self, if_true]

/-- R38, R42, R76: an action that is allowed while a command runs is always taken. -/
theorem step_allowed {s : State} {a : HostAction} {rest : List HostAction} (hin : s.hostIn = a :: rest)
    (ha : allowedWhileBusy a = true) : step s = (hostAct Config.canvas a { s with hostIn := rest }).outcome := by
  simp only [step_eq_outcome, fetch, fetchOn, hin, ha, Bool.not_true, Bool.and_false, Bool.false_eq_true, if_false]

/-- R38: while a command runs no register but `STATUS` may be read. -/
theorem allowedWhileBusy_readReg {n : Nat} (hn : n ≠ 1) : allowedWhileBusy (.readReg n) = false := by
  match n with
  | 0 => rfl
  | 1 => exact absurd rfl hn
  | _ + 2 => rfl

/-- Settles O45: of the accesses only a read of `STATUS` is allowed while `BUSY = 1`, and it returns bit 0 as it is. -/
theorem accessWhileBusy : Obligations.AccessWhileBusy := by
  intro s a rest hb hin
  refine ⟨fun ha => step_not_allowed hb hin ?_, ?_, if_pos hb, if_pos hb⟩
  · obtain ⟨k, v, rfl⟩ | ⟨k, rfl⟩ | ⟨x, y, p, rfl⟩ | ⟨x, y, rfl⟩ | ⟨n, v, rfl⟩ | ⟨n, hn, rfl⟩ := ha
    · rfl
    · rfl
    · rfl
    · rfl
    · rfl
    · exact allowedWhileBusy_readReg hn
  · rintro rfl
    exact ⟨_, step_allowed hin rfl, s.statusRead_fields.1.trans hb⟩

/-! ### No fault -/

/-- No meaning of an instruction faults: a frame command is refused or ends, and a unit always answers. -/
theorem exec_no_fault (i : Instr) (s : State) (f : Fault) : exec i s ≠ .fault f := by
  cases i with
  | classify | pack4 | expand | unpack4 => nofun
  | encode =>
    change execEncode s ≠ _
    unfold execEncode
    split <;> nofun
  | decode =>
    change execDecode s ≠ _
    unfold execDecode
    split <;> nofun

/-- Nothing the host does faults, in whatever state. -/
theorem hostAct_outcome_no_fault (c : Canvas) (a : HostAction) (s : State) (f : Fault) :
    (hostAct c a s).outcome ≠ .fault f := by
  cases h : hostAct c a s with
  | instr i t => exact exec_no_fault i t f
  | done o => exact fun ho => hostAct_no_fault (h.trans (congrArg _ ho))

/-- Settles O54: the only fault is that of a block left alone with its counters off the canvas, which the invariant
excludes. -/
theorem noStepFaults : Obligations.NoStepFaults := by
  intro s f h
  rw [step_eq_outcome, fetch]
  obtain ⟨-, hf⟩ | ⟨a, rest, -, -, -, hf⟩ | ⟨a, rest, -, -, hf⟩ := fetchOn_cases Config.canvas s <;> rw [hf]
  · rw [idle_eq_engineStep h.seq_inRange]
    nofun
  · nofun
  · exact hostAct_outcome_no_fault _ a _ f

end Sys2Proof.Machine

/-!
PROOFS, family 30_encoding.md: the byte codec (O1, O2, O4), what a unit returns (O11), the step that runs a decoded
instruction or takes IllegalCommand (O39, O34), and two ways in which a command is undisturbed: by the unit ports (O15), and
by padding lanes and the earlier raster (O25). The packed byte is its four lanes (`lane_joinLanes`, `joinLanes_lane`), and a
run of the decoder is followed group by group (`State.DecodedUpTo`).
-/

namespace Sys2Proof.Machine

/-! ### The packed byte -/

/-- R26, R40: lane `i` of a packed byte is the level that was put there. -/
theorem lane_joinLanes (ls : Levels) {i : Nat} (hi : i < 4) : lane (joinLanes ls) i = laneOf ls i := by
  -- a lane is read by passing over the lanes below it
  interval_cases i
  · exact (BitVec.extractLsb'_append_eq_of_le (by decide)).trans <|
      (BitVec.extractLsb'_append_eq_of_le (by decide)).trans BitVec.extractLsb'_append_eq_left
  · exact (BitVec.extractLsb'_append_eq_of_le (by decide)).trans <|
      (BitVec.extractLsb'_append_eq_of_le (by decide)).trans BitVec.extractLsb'_append_eq_right
  · exact (BitVec.extractLsb'_append_eq_of_le (by decide)).trans BitVec.extractLsb'_append_eq_right
  · exact BitVec.extractLsb'_append_eq_right

/-- R40: a byte is its four lanes, the first in the most significant bits. -/
theorem joinLanes_lane (b : Byte) : joinLanes ⟨lane b 0, lane b 1, lane b 2, lane b 3⟩ = b := by
  have h01 : lane b 0 ++ lane b 1 = b.extractLsb' 4 4 := BitVec.extractLsb'_append_extractLsb'_eq_extractLsb' rfl
  have h012 : b.extractLsb' 4 4 ++ lane b 2 = b.extractLsb' 2 6 :=
    BitVec.extractLsb'_append_extractLsb'_eq_extractLsb' rfl
  have h0123 : b.extractLsb' 2 6 ++ lane b 3 = b.extractLsb' 0 8 :=
    BitVec.extractLsb'_append_extractLsb'_eq_extractLsb' rfl
  exact (congrArg (· ++ lane b 2 ++ lane b 3) h01).trans <| (congrArg (· ++ lane b 3) h012).trans <|
    h0123.trans BitVec.extractLsb'_eq_self

/-- R40, R51: the packer's shifts put the four levels side by side. -/
theorem pack4_eq_joinLanes (ls : Levels) : pack4 ls = joinLanes ls := by
  refine BitVec.eq_of_getLsbD_eq fun i hi => ?_
  simp only [pack4, joinLanes, BitVec.getLsbD_or, BitVec.getLsbD_shiftLeft, BitVec.getLsbD_setWidth,
    BitVec.getLsbD_append]
  interval_cases i <;> simp

theorem lane_pack4 (ls : Levels) {i : Nat} (hi : i < 4) : lane (pack4 ls) i = laneOf ls i := by
  rw [pack4_eq_joinLanes, lane_joinLanes ls hi]

/-- Settles O4: the fields are the four lanes, the value is the packer's definition, and a byte is packed from its lanes. -/
theorem packedByteFields : Obligations.PackedByteFields := by
  refine ⟨fun l0 l1 l2 l3 => ?_, fun b => ⟨_, (pack4_eq_joinLanes _).trans (joinLanes_lane b)⟩⟩
  have hlane := @lane_pack4 ⟨l0, l1, l2, l3⟩
  exact ⟨@hlane 0 (by decide), @hlane 1 (by decide), @hlane 2 (by decide), @hlane 3 (by decide), rfl⟩

/-! ### The decoder and the encoder -/

/-- R44: every code but the two of R43 is reserved. -/
theorem decodeCommand_reserved {c : Byte} (h1 : c ≠ 0x01) (h2 : c ≠ 0x02) :
    decodeCommand c = .error (.reservedCommand c) := by
  rw [decodeCommand, if_neg h1, if_neg h2]

/-- Settles O2: the two codes by evaluation, every other one by the two comparisons. -/
theorem commandCodesDecodeWhole : Obligations.CommandCodesDecodeWhole :=
  ⟨rfl, rfl, fun _ => decodeCommand_reserved⟩

/-- R42: the port `X_L` takes a value of two bits, and `EXPAND` has it as its level. -/
theorem decodePort_xL {w : Byte} {i : Instr} (h : decodePort .xL w = .ok i) :
    w.toNat < 4 ∧ i = .expand (w.setWidth 2) := by
  simp only [decodePort] at h
  split at h <;> cases h
  exact ⟨‹_›, rfl⟩

/-- R39 to R43: an instruction is decoded from its encoding. -/
theorem decode_encode (i : Instr) : Sys2Proof.decode (Sys2Proof.encode i).1 (Sys2Proof.encode i).2 = .ok i := by
  cases i with
  | classify | unpack4 | encode | decode => rfl
  | pack4 l0 l1 l2 l3 =>
    have hlane := @lane_joinLanes ⟨l0, l1, l2, l3⟩
    simp only [Sys2Proof.encode, Sys2Proof.decode, decodePort, hlane, Nat.reduceLT, laneOf]
  | expand l =>
    have hl : (l.setWidth 8).toNat < 4 := by
      rw [BitVec.toNat_setWidth_of_le (by decide)]
      exact l.isLt
    have hback : (l.setWidth 8).setWidth 2 = l := by simp
    simp only [Sys2Proof.encode, Sys2Proof.decode, decodePort, if_pos hl, hback]

/-- R43: a code that decodes to a command is the command's code. -/
theorem encode_of_decodeCommand {w : Byte} {i : Instr} (h : decodeCommand w = .ok i) :
    Sys2Proof.encode i = (.cmd, w) := by
  unfold decodeCommand at h
  split at h
  · subst w; cases h; rfl
  · split at h <;> cases h
    subst w; rfl

/-- R42: a value that a port takes is the encoding of the operation it selects. -/
theorem encode_of_decodePort {p : UnitPort} {w : Byte} {i : Instr} (h : decodePort p w = .ok i) :
    Sys2Proof.encode i = (.port p, w) := by
  cases p with
  | qA | uB => cases h; rfl
  | pL =>
    cases h
    exact congrArg (Prod.mk _) (joinLanes_lane w)
  | xL =>
    obtain ⟨hw, rfl⟩ := decodePort_xL h
    exact congrArg (Prod.mk _) (BitVec.setWidth_setWidth_eq_self hw)

/-- Settles O1: one round trip by the instruction, the other by the place where the byte arrives. -/
theorem decodeAndEncodeAgree : Obligations.DecodeAndEncodeAgree := by
  refine ⟨decode_encode, fun sel w i h => ?_⟩
  cases sel with
  | cmd => exact encode_of_decodeCommand h
  | port p => exact encode_of_decodePort h

/-! ### The step that decodes -/

/-- Settles O11: each unit replies with its output at the ports it leaves. -/
theorem unitResultsAreReturned : Obligations.UnitResultsAreReturned := fun _ _ _ _ _ _ _ _ =>
  ⟨⟨_, rfl, rfl⟩, ⟨_, rfl, rfl⟩, ⟨_, rfl, rfl⟩, ⟨_, rfl, rfl⟩⟩

/-- R17, R43: with no command running, a code written to `CMD` goes to the command decoder. -/
theorem step_writeCommand {s : State} {code : Byte} {rest : List HostAction} (hb : s.busy = false)
    (hin : s.hostIn = .writeReg 0 (code.setWidth 32) :: rest) :
    step s = (writeCommand code { s with hostIn := rest }).outcome := by
  rw [step_settled hb hin, hostAct, hostWriteReg_command]

/-- R43: a code that decodes runs its command. -/
theorem writeCommand_outcome {code : Byte} {i : Instr} (h : Sys2Proof.decode .cmd code = .ok i) (s : State) :
    (writeCommand code s).outcome = exec i s := by
  rw [writeCommand, h]
  rfl

/-- Settles O34: a reserved code takes the decoder's error branch, which raises IllegalCommand. -/
theorem reservedCodeIsIllegalCommand : Obligations.ReservedCodeIsIllegalCommand := by
  intro s code rest hb hin h1 h2
  have hreserved : Sys2Proof.decode .cmd code = .error (.reservedCommand code) := decodeCommand_reserved h1 h2
  obtain ⟨-, -, -, hillegal⟩ := statusCompleted_eq
  rw [step_writeCommand hb hin, writeCommand, hreserved, ← hillegal]
  rfl

/-- Settles O39: a code and a driven value reach the decoder as they are, and a fetch word is a code written to `CMD`. -/
theorem stepRunsTheDecodedInstruction : Obligations.StepRunsTheDecodedInstruction := by
  have hcommand : ∀ (s : State) (code : Byte) (rest : List HostAction) (i : Instr), s.busy = false →
      s.hostIn = .writeReg 0 (code.setWidth 32) :: rest → Sys2Proof.decode .cmd code = .ok i →
      step s = exec i { s with hostIn := rest } := fun s code rest i hb hin hi =>
    (step_writeCommand hb hin).trans (writeCommand_outcome hi _)
  refine ⟨hcommand, fun s p w rest i hin hi => ?_, fun s code hb i hi => ?_⟩
  · rw [step_allowed hin rfl, hostAct, hostDrive, hi]
    rfl
  · have hin : (s.withFetchWord 8 code.toNat).hostIn = .writeReg 0 (code.setWidth 32) :: s.hostIn := by
      rw [← BitVec.ofNat_toNat]
      rfl
    exact hcommand _ code s.hostIn i hb hin hi

/-! ### The unit ports have no part in a command -/

section
variable (c : Canvas) (p : Ports)

theorem storeLane_setPorts (x y : Nat) (l : Level) (s : State) :
    storeLane c x y l { s with ports := p } = { storeLane c x y l s with ports := p } := by
  unfold storeLane
  split <;> rfl

/-- R42, R60: a group step of DECODE does the same whatever the ports carry. -/
theorem decodeGroup_setPorts (q : Sequencer) (s : State) :
    decodeGroup c q { s with ports := p } = { decodeGroup c q s with ports := p } := by
  have hbyte : State.byteAt { s with ports := p } q.cur.toNat = s.byteAt q.cur.toNat := rfl
  simp only [decodeGroup, storeGroup, hbyte, storeLane_setPorts]

theorem groupStep_setPorts (q : Sequencer) (s : State) :
    groupStep c q { s with ports := p } = { groupStep c q s with ports := p } := by
  unfold groupStep
  split
  · rfl
  · exact decodeGroup_setPorts c p q s

/-- R42: a step of an engine does the same whatever the ports carry. -/
theorem engineStep_setPorts (s : State) :
    engineStep c { s with ports := p } = { engineStep c s with ports := p } := by
  have hseq : State.seq { s with ports := p } = s.seq := rfl
  obtain hq | ⟨q, hq⟩ := Option.eq_none_or_eq_some s.seq
  · rw [engineStep_of_seq_none hq, engineStep_of_seq_none (hseq.trans hq)]
  · obtain hy | hy := Nat.lt_or_ge q.y.toNat c.H
    · rw [engineStep_of_lt hq hy, engineStep_of_lt (hseq.trans hq) hy, groupStep_setPorts]
    · rw [engineStep_of_ge hq hy, engineStep_of_ge (hseq.trans hq) hy]
      unfold finish
      split <;> rfl

theorem runEngine_setPorts (n : Nat) (s : State) :
    runEngine c n { s with ports := p } = { runEngine c n s with ports := p } := by
  induction n generalizing s with
  | zero => rfl
  | succ n ih => rw [runEngine, engineStep_setPorts, ih]; rfl

end

/-- Settles O15: the ports have no part in the checks, and none in a run of an engine. -/
theorem portsNeverDisturbACommand : Obligations.PortsNeverDisturbACommand := by
  intro c s p
  have hcommand : ∀ (e : Engine) (err : Err) (ok : Bool),
      (if ok then runEngine c (c.N + 1) (State.issue { s with ports := p } e)
        else (State.issue { s with ports := p } e).raise err) =
      { (if ok then runEngine c (c.N + 1) (s.issue e) else (s.issue e).raise err) with ports := p } := by
    intro e err ok
    cases ok
    · rfl
    · exact runEngine_setPorts c p _ (s.issue e)
  exact ⟨hcommand .encoder .shape (shapeOk c (s.issue .encoder)),
    hcommand .decoder .length (lengthOk c (s.issue .decoder))⟩

/-! ### What a DECODE leaves -/

theorem runEngine_epoch (c : Canvas) (n : Nat) (s : State) : (runEngine c n s).epoch = s.epoch := by
  induction n generalizing s with
  | zero => rfl
  | succ n ih => exact (ih _).trans (engineStep_host c s).2.1

/-- R71: at group `N` the next step of the engine is the end of the command. -/
theorem State.RunsAt.engineStep_eq_finish {c : Canvas} {e : Engine} {s : State} (h : s.RunsAt c e c.N) :
    ∃ q, q.engine = e ∧ Machine.engineStep c s = finish c q s := by
  obtain ⟨-, q, hq, he, hcur, hr⟩ := h
  have hy : q.y.toNat = c.H := by
    rw [(Sequencer.position_of_inRange hr).1, hcur]
    exact Nat.mul_div_cancel_left c.H (canvas_G_pos c)
  exact ⟨q, he, engineStep_of_ge hq hy.ge⟩

/-- R60: while the decoder stands at group `n`, the pixels of the groups below `n` are those of their lanes in the stream
`s` holds, and the others are as in `s`. -/
def State.DecodedUpTo (c : Canvas) (s : State) (n : Nat) (t : State) : Prop :=
  Memory.wf (c.W * c.H) t.rast = true ∧
  ∀ x y, x < c.W → t.pixelAt c x y = if byteIndex c x y < n
    then pixelOfLevel (lane (s.byteAt (byteIndex c x y)) (x % 4)) else s.pixelAt c x y

/-- R60: a group step of DECODE at group `n` decodes one group more. -/
theorem State.DecodedUpTo.decodeGroup {c : Canvas} {s t : State} {q : Sequencer} (h : s.DecodedUpTo c q.cur.toNat t)
    (hbyte : t.byteAt q.cur.toNat = s.byteAt q.cur.toNat) (hr : q.inRange c = true) (hy : q.y.toNat < c.H) :
    s.DecodedUpTo c (q.cur.toNat + 1) (decodeGroup c q t) := by
  obtain ⟨hwf, hpixel⟩ := h
  obtain ⟨-, -, hx4, -, -⟩ := Sequencer.inRange_iff.mp hr
  refine ⟨(storeGroup_spec hwf hy hx4 _).1, fun x y hx => ?_⟩
  rw [decodeGroup_pixelAt hwf hr hy x y hx, hpixel x y hx, hbyte]
  obtain hlt | heq | hgt := Nat.lt_trichotomy (byteIndex c x y) q.cur.toNat
  · rw [if_neg hlt.ne, if_pos hlt, if_pos (by omega)]
  · rw [if_pos heq, heq, if_pos (by omega)]
  · rw [if_neg hgt.ne', if_neg (by omega), if_neg (by omega)]

/-- R60: `n` steps of a DECODE, up to `N`, decode the first `n` groups. -/
theorem runEngine_decodedUpTo {c : Canvas} {s : State} (h : Memory.wf (c.W * c.H) s.rast = true) {n : Nat}
    (hn : n ≤ c.N) : s.DecodedUpTo c n (runEngine c n (s.issue .decoder)) := by
  induction n with
  | zero => exact ⟨h, fun x y _ => (if_neg (Nat.not_lt_zero _)).symm⟩
  | succ n ih =>
    obtain ⟨-, q, hq, he, rfl, hr⟩ := runEngine_runsAt c .decoder s (Nat.le_of_succ_le hn)
    have hy : q.y.toNat < c.H := by
      rw [(Sequencer.position_of_inRange hr).1]
      exact Nat.div_lt_of_lt_mul hn
    have hbyte := State.byteAt_congr (runEngine_sameInput q.cur.toNat (s.issue_runsOnly .decoder)).1
      (runEngine_epoch c q.cur.toNat (s.issue .decoder)) q.cur.toNat
    rw [runEngine_succ, engineStep_of_lt hq hy, groupStep, he]
    exact (ih (Nat.le_of_succ_le hn)).decodeGroup hbyte hr hy

/-- R60, R71: a DECODE whose check passed ends as the run of its `N` groups with the raster's shape declared. -/
theorem decodeOn_eq_complete {c : Canvas} {s : State} (hn : s.slen.toNat = c.N) :
    decodeOn c s = State.complete { runEngine c c.N (s.issue .decoder) with
      rw := BitVec.ofNat 16 c.W, rh := BitVec.ofNat 16 c.H } := by
  obtain ⟨q, he, hfinish⟩ := (runEngine_runsAt c .decoder s le_rfl).engineStep_eq_finish
  rw [decodeOn_of_length hn, runEngine_succ, hfinish, finish, he]

/-- R61: every pixel of the canvas after a DECODE whose check passed. -/
theorem decodeOn_pixelAt {c : Canvas} {s : State} (h : Memory.wf (c.W * c.H) s.rast = true) (hn : s.slen.toNat = c.N)
    {x y : Nat} (hx : x < c.W) (hy : y < c.H) :
    (decodeOn c s).pixelAt c x y = pixelOfLevel (lane (s.byteAt (byteIndex c x y)) (x % 4)) := by
  obtain ⟨-, hpixel⟩ := runEngine_decodedUpTo h le_rfl
  rw [decodeOn_eq_complete hn]
  exact (hpixel x y hx).trans (if_pos (byteIndex_lt hx hy))

/-- Settles O25: a pixel decodes from its own lane, whatever the padding and the earlier raster hold. -/
theorem decodeIgnoresPadding : Obligations.DecodeIgnoresPadding := by
  intro c s t hs ht hn hlen hlane
  have hn' : t.slen.toNat = c.N := hlen ▸ hn
  refine ⟨?_, fun x y hx hy => ?_⟩
  · rw [decodeOn_eq_complete hn']
    exact statusCompleted_eq.1
  · rw [decodeOn_pixelAt ht hn' hx hy, decodeOn_pixelAt hs hn hx hy, hlane x y hx hy]

end Sys2Proof.Machine

/-!
PROOFS, family 40_quantizer.md: the quantizer (O7, O12). The level of an alpha is at least `k` exactly when the alpha has
reached the `k`-th threshold of R48; the bands, their sizes and the properties of R49 follow from that.
-/

namespace Sys2Proof.Machine

/-- R48: the least alpha of each level; 256, one more than every alpha, ends the last band. -/
def threshold : Nat → Nat
  | 0 => 0
  | 1 => 1
  | 2 => 85
  | 3 => 170
  | _ => 256

/-- R48: each comparison of the quantizer decides whether one threshold is reached. -/
theorem le_classify_iff (a : Byte) (k : Nat) : k ≤ (classify a).toNat ↔ threshold k ≤ a.toNat := by
  have ha := a.isLt
  match k with
  | 0 | 1 | 2 | 3 => simp only [classify, threshold]; split_ifs <;> bv_omega
  | k + 4 =>
    have hl := (classify a).isLt
    simp only [threshold]
    omega

/-- R48: the class of a level is the band from its threshold up to the next one. -/
theorem classify_eq_iff (a : Byte) (l : Level) :
    classify a = l ↔ threshold l.toNat ≤ a.toNat ∧ a.toNat < threshold (l.toNat + 1) := by
  rw [← Nat.not_le, ← le_classify_iff, ← le_classify_iff, BitVec.toNat_eq]
  omega

/-- R48: a class has as many members as its band is long. -/
theorem countP_classify (l : Level) :
    ((List.range 256).countP fun n => classify (BitVec.ofNat 8 n) = l)
      = threshold (l.toNat + 1) - threshold l.toNat := by
  have hband : (Finset.range 256).filter (fun n => classify (BitVec.ofNat 8 n) = l)
      = Finset.Ico (threshold l.toNat) (threshold (l.toNat + 1)) := by
    have hend : threshold (l.toNat + 1) ≤ 256 := by revert l; decide
    ext n
    rw [Finset.mem_filter, Finset.mem_range, Finset.mem_Ico, classify_eq_iff, BitVec.toNat_ofNat]
    omega
  calc ((List.range 256).countP fun n => classify (BitVec.ofNat 8 n) = l)
      = Nat.count (fun n => classify (BitVec.ofNat 8 n) = l) 256 := rfl
    _ = _ := by rw [Nat.count_eq_card_filter_range, hband, Nat.card_Ico]

/-- Settles O7: the bands and their lengths are read off the thresholds, and the operation only drives its port. -/
theorem classifyRuns : Obligations.ClassifyRuns := by
  refine ⟨fun a s => ⟨_, classify a, rfl, rfl, fun h => ?_, (classify_eq_iff a 1).mpr, (classify_eq_iff a 2).mpr,
    fun h => (classify_eq_iff a 3).mpr ⟨h, a.isLt⟩, rfl⟩,
    countP_classify 0, countP_classify 1, countP_classify 2, countP_classify 3⟩
  exact (classify_eq_iff a 0).mpr ⟨h.ge, h.trans_lt Nat.one_pos⟩

/-- R49 (a): a larger alpha has reached every threshold a smaller one has. -/
theorem classify_mono {a b : Byte} (h : a.toNat ≤ b.toNat) : (classify a).toNat ≤ (classify b).toNat :=
  (le_classify_iff b _).mpr (((le_classify_iff a _).mp le_rfl).trans h)

/-- R49 (b): a level is the number of the levels 1, 2 and 3 that do not exceed it. -/
theorem level_toNat_eq_count (l : Level) :
    l.toNat = (if 1 ≤ l.toNat then 1 else 0) + (if 2 ≤ l.toNat then 1 else 0) + (if 3 ≤ l.toNat then 1 else 0) := by
  revert l; decide

/-- R49 (b): the two bits of a level as comparisons. -/
theorem level_getLsbD (l : Level) : l.getLsbD 1 = decide (2 ≤ l.toNat) ∧
    l.getLsbD 0 = (decide (3 ≤ l.toNat) || (decide (1 ≤ l.toNat) && !decide (2 ≤ l.toNat))) := by
  revert l; decide

/-- R49 (f): the expander's value of a level lies in the level's band. -/
theorem classify_expand (l : Level) : classify (expand l) = l := by
  rw [classify_eq_iff]
  revert l
  decide

/-- Settles O12: what holds of a level by its own size holds of an alpha by its thresholds, and the expander gives every
level an alpha. -/
theorem classifyProperties : Obligations.ClassifyProperties := by
  refine ⟨fun a b => classify_mono, fun a => ?_, fun a => ?_, fun l => ⟨expand l, classify_expand l⟩, classify_expand⟩
  · have h := level_toNat_eq_count (classify a)
    simpa only [le_classify_iff, threshold] using h
  · obtain ⟨h1, h0⟩ := level_getLsbD (classify a)
    simp only [le_classify_iff, ← decide_not, Nat.not_le] at h1 h0
    exact ⟨h1, h0⟩

end Sys2Proof.Machine

/-!
PROOFS, family 41_packer_encoder.md: the packer (O8) and what an ENCODE leaves (O16, O17, O19, O20). A run of the encoder
is followed group by group (`State.EncodedUpTo`); lane `i` of byte `k` is then `groupLevel` (`lane_encodeOn_byteAt`), and
two bytes are equal when their four lanes are.
-/

namespace Sys2Proof.Machine

/-! ### The packer -/

/-- R59, R26: UNPACK4 gives the four lanes of a byte. -/
theorem unpack4_eq_lanes (b : Byte) : unpack4 b = ⟨lane b 0, lane b 1, lane b 2, lane b 3⟩ := by
  have hlane := @laneOf_unpack4 b
  rw [← hlane (i := 0) (by decide), ← hlane (i := 1) (by decide), ← hlane (i := 2) (by decide),
    ← hlane (i := 3) (by decide)]
  rfl

theorem pack4_unpack4 (b : Byte) : pack4 (unpack4 b) = b := by
  rw [unpack4_eq_lanes, pack4_eq_joinLanes, joinLanes_lane]

theorem unpack4_pack4 (ls : Levels) : unpack4 (pack4 ls) = ls := by
  simp only [unpack4_eq_lanes, lane_pack4, Nat.reduceLT, laneOf]

/-- R7: a level put after other bits has the weight of the two lowest bits. -/
theorem toNat_append_level {n : Nat} (v : BitVec n) (l : Level) : (v ++ l).toNat = 4 * v.toNat + l.toNat := by
  rw [BitVec.toNat_append, ← Nat.shiftLeft_add_eq_or_of_lt l.isLt, Nat.shiftLeft_eq, Nat.mul_comm]

/-- R51: the packed byte as a number. -/
theorem pack4_toNat (ls : Levels) :
    (pack4 ls).toNat = 64 * ls.l0.toNat + 16 * ls.l1.toNat + 4 * ls.l2.toNat + ls.l3.toNat := by
  rw [pack4_eq_joinLanes, joinLanes, toNat_append_level, toNat_append_level, toNat_append_level]
  omega

/-- Settles O8: the fields are lanes of the packed byte, and the operation only drives its port. -/
theorem pack4Runs : Obligations.Pack4Runs := by
  refine ⟨pack4_unpack4, fun l0 l1 l2 l3 s => ?_⟩
  have hlane := @lane_pack4 ⟨l0, l1, l2, l3⟩
  exact ⟨_, pack4 ⟨l0, l1, l2, l3⟩, rfl, rfl, pack4_toNat _, @hlane 0 (by decide), @hlane 1 (by decide),
    @hlane 2 (by decide), @hlane 3 (by decide), unpack4_pack4 _, rfl⟩

/-! ### What an ENCODE leaves -/

/-- R53: while the encoder stands at group `n`, the bytes below `n` are written with the groups of the raster of `s`, the
others are as in `s`, and only the stream and the sequencer differ from the state in which the command was issued. -/
structure State.EncodedUpTo (c : Canvas) (s : State) (n : Nat) (t : State) : Prop where
  frame : t = { s.issue .encoder with strm := t.strm, seq := t.seq }
  strm_wf : Memory.wf c.N t.strm = true
  lookup : ∀ k, Memory.lookup t.strm k =
    if k < n then some (encGroup c s (4 * (k % c.G)) (k / c.G)) else Memory.lookup s.strm k

/-- R53: a group step of ENCODE at group `n` encodes one group more. -/
theorem State.EncodedUpTo.encodeGroup {c : Canvas} {s t : State} {q : Sequencer} (h : s.EncodedUpTo c q.cur.toNat t)
    (hr : q.inRange c = true) (hcur : q.cur.toNat < c.N) :
    s.EncodedUpTo c (q.cur.toNat + 1) (encodeGroup c q t) where
  frame := by
    rw [h.frame]
    rfl
  strm_wf := Memory.wf_write h.strm_wf hcur _
  lookup k := by
    have hrast : t.rast = s.rast := by rw [h.frame]; rfl
    have hepoch : t.epoch = s.epoch := by rw [h.frame]; rfl
    have hgroup : loadGroup c t q.x.toNat q.y.toNat
        = loadGroup c s (4 * (q.cur.toNat % c.G)) (q.cur.toNat / c.G) := by
      obtain ⟨hy, hx⟩ := Sequencer.position_of_inRange hr
      rw [loadGroup_congr hrast hepoch, hy, hx]
    have hstep : Memory.lookup (Machine.encodeGroup c q t).strm k = _ := Memory.lookup_write h.strm_wf _ k _
    rw [hstep, hgroup, h.lookup k]
    obtain hlt | rfl | hgt := Nat.lt_trichotomy k q.cur.toNat
    · rw [if_neg hlt.ne', if_pos hlt, if_pos (by omega)]
    · rw [if_pos rfl, if_pos (by omega)]
      rfl
    · rw [if_neg hgt.ne, if_neg (by omega), if_neg (by omega)]

/-- R53: `n` steps of an ENCODE, up to `N`, encode the first `n` groups. -/
theorem runEngine_encodedUpTo {c : Canvas} {s : State} (h : Memory.wf c.N s.strm = true) {n : Nat} (hn : n ≤ c.N) :
    s.EncodedUpTo c n (runEngine c n (s.issue .encoder)) := by
  induction n with
  | zero => exact ⟨rfl, h, fun k => (if_neg (Nat.not_lt_zero k)).symm⟩
  | succ n ih =>
    obtain ⟨-, q, hq, he, rfl, hr⟩ := runEngine_runsAt c .encoder s (Nat.le_of_succ_le hn)
    have hy : q.y.toNat < c.H := by
      rw [(Sequencer.position_of_inRange hr).1]
      exact Nat.div_lt_of_lt_mul hn
    rw [runEngine_succ, engineStep_of_lt hq hy, groupStep, he]
    exact (ih (Nat.le_of_succ_le hn)).encodeGroup hr hn

section
variable {c : Canvas} {s : State} (hw : s.rw.toNat = c.W) (hh : s.rh.toNat = c.H)
include hw hh

/-- R53, R71: an ENCODE whose check passed ends as the run of its `N` groups with the stream's length declared. -/
theorem encodeOn_eq_complete :
    encodeOn c s = State.complete { runEngine c c.N (s.issue .encoder) with slen := BitVec.ofNat 32 c.N } := by
  obtain ⟨q, he, hfinish⟩ := (runEngine_runsAt c .encoder s le_rfl).engineStep_eq_finish
  rw [encodeOn_of_shape hw hh, runEngine_succ, hfinish, finish, he]

/-- R15, R71: the registers after an ENCODE whose check passed. -/
theorem encodeOn_registers :
    (encodeOn c s).slen = BitVec.ofNat 32 c.N ∧ (encodeOn c s).status = 0x02 ∧ (encodeOn c s).seq = none := by
  rw [encodeOn_eq_complete hw hh]
  exact ⟨rfl, statusCompleted_eq.1, rfl⟩

variable (h : Memory.wf c.N s.strm = true)
include h

/-- R53: an ENCODE changes the stream, its length, `STATUS` and the sequencer alone. -/
theorem encodeOn_frame : encodeOn c s = { s with
    strm := (encodeOn c s).strm, slen := (encodeOn c s).slen, status := (encodeOn c s).status, seq := none } := by
  rw [encodeOn_eq_complete hw hh, (runEngine_encodedUpTo h le_rfl).frame]
  rfl

/-- R54: an ENCODE writes every byte of the stream with the group of its index. -/
theorem encodeOn_lookup {k : Nat} (hk : k < c.N) :
    Memory.lookup (encodeOn c s).strm k = some (encGroup c s (4 * (k % c.G)) (k / c.G)) := by
  rw [encodeOn_eq_complete hw hh]
  exact ((runEngine_encodedUpTo h le_rfl).lookup k).trans (if_pos hk)

theorem encodeOn_byteAt {k : Nat} (hk : k < c.N) :
    (encodeOn c s).byteAt k = encGroup c s (4 * (k % c.G)) (k / c.G) := by
  rw [State.byteAt, encodeOn_lookup hw hh h hk, Option.getD_some]

/-- R54: lane `i` of byte `k` after an ENCODE is the level of lane `i` of group `k`. -/
theorem lane_encodeOn_byteAt {k i : Nat} (hk : k < c.N) (hi : i < 4) :
    lane ((encodeOn c s).byteAt k) i = groupLevel c s (4 * (k % c.G)) (k / c.G) i := by
  rw [encodeOn_byteAt hw hh h hk, encGroup, lane_pack4 _ hi, laneOf_loadGroup c s _ _ hi]

/-- R54: after an ENCODE the lane of a column of a group, padding included, is the class of its pixel or 0. -/
theorem lane_encodeOn_byteIndex {x y : Nat} (hx : x < 4 * c.G) (hy : y < c.H) :
    lane ((encodeOn c s).byteAt (byteIndex c x y)) (x % 4) =
      if x < c.W then classify (s.pixelAt c x y).a else 0 := by
  -- the first column of the group is on the canvas, even when `x` is not
  have hx0 : 4 * (x / 4) < c.W := by unfold Canvas.G at hx; omega
  have hbyte : byteIndex c x y = byteIndex c (4 * (x / 4)) y := by
    rw [byteIndex, byteIndex, Nat.mul_div_cancel_left _ (by decide)]
  obtain ⟨hrow, hgroup⟩ := byteIndex_div_mod hx0 y
  rw [hbyte, lane_encodeOn_byteAt hw hh h (byteIndex_lt hx0 hy) (Nat.mod_lt x (by decide)), hrow, hgroup,
    Nat.mul_div_cancel_left _ (by decide), groupLevel, Nat.div_add_mod]

/-- R54: the padding lanes after an ENCODE are 0. -/
theorem lane_encodeOn_padding {x y : Nat} (hW : c.W ≤ x) (hx : x < 4 * c.G) (hy : y < c.H) :
    lane ((encodeOn c s).byteAt (byteIndex c x y)) (x % 4) = 0 :=
  (lane_encodeOn_byteIndex hw hh h hx hy).trans (if_neg (Nat.not_lt.mpr hW))

end

/-- Settles O16: with the canvas declared the command is not refused and passes its check, so it encodes all groups. -/
theorem encodeCompletes : Obligations.EncodeCompletes := by
  intro s hinv hb hrw hrh
  have hw : s.rw.toNat = Config.canvas.W := by rw [hrw]; rfl
  have hh : s.rh.toNat = Config.canvas.H := by rw [hrh]; rfl
  have hexec : exec .encode s = .next (encodeOn Config.canvas s) := by
    change execEncode s = _
    rw [execEncode, hb]
    rfl
  obtain ⟨hslen, hstatus, hseq⟩ := encodeOn_registers hw hh
  exact ⟨_, hexec, hstatus, hslen, hseq, fun k hk => encodeOn_byteAt hw hh hinv.strm_wf hk,
    encodeOn_frame hw hh hinv.strm_wf⟩

/-- Settles O17: every byte is written with its group, and its lanes are pixels below `W` and padding beyond. -/
theorem encodeLanesOnEveryCanvas : Obligations.EncodeLanesOnEveryCanvas := by
  intro c s h hw hh
  obtain ⟨hslen, hstatus, -⟩ := encodeOn_registers hw hh
  refine ⟨fun k => encodeOn_byteAt hw hh h, fun x y hx hy => ?_, fun x y hW hx hy => ?_, fun k hk => ?_, ?_, hstatus⟩
  · have hx4 : x < 4 * c.G := by unfold Canvas.G; omega
    exact (lane_encodeOn_byteIndex hw hh h hx4 hy).trans (if_pos hx)
  · exact lane_encodeOn_padding hw hh h hW hx hy
  · rw [encodeOn_lookup hw hh h hk]
    rfl
  · rw [hslen, BitVec.toNat_ofNat, Nat.mod_eq_of_lt (canvas_N_lt c)]

/-! ### What the stream depends on -/

/-- R26, R40: two bytes with the same four lanes are equal. -/
theorem byte_eq_of_lanes {b b' : Byte} (h : ∀ i < 4, lane b i = lane b' i) : b = b' := by
  rw [← joinLanes_lane b, ← joinLanes_lane b', h 0 (by decide), h 1 (by decide), h 2 (by decide), h 3 (by decide)]

/-- R52: the level of a lane depends on the alpha of its pixel alone. -/
theorem groupLevel_congr {c : Canvas} {s t : State} {y : Nat}
    (h : ∀ x < c.W, (t.pixelAt c x y).a = (s.pixelAt c x y).a) (x i : Nat) :
    groupLevel c t x y i = groupLevel c s x y i := by
  unfold groupLevel
  split
  · rw [h (x + i) ‹_›]
  · rfl

/-- R20: a byte of the stream belongs to a row of the canvas. -/
theorem row_lt_of_lt {c : Canvas} {k : Nat} (hk : k < c.N) : k / c.G < c.H := Nat.div_lt_of_lt_mul hk

/-- Settles O19: lane by lane, for the level of a lane depends on its pixel's alpha alone. -/
theorem encodeDependsOnAlphaOnly : Obligations.EncodeDependsOnAlphaOnly := by
  intro c s t hs ht hw hh hrw hrh halpha k hk
  refine byte_eq_of_lanes fun i hi => ?_
  rw [lane_encodeOn_byteAt (hrw ▸ hw) (hrh ▸ hh) ht hk hi, lane_encodeOn_byteAt hw hh hs hk hi]
  exact groupLevel_congr (fun x hx => halpha x _ hx (row_lt_of_lt hk)) _ i

/-- R26: every lane of the opaque byte is level 3. -/
theorem lane_opaque {i : Nat} (hi : i < 4) : lane 0xFF i = 3 := by
  revert i
  decide

/-- R26: every lane of the transparent byte is level 0. -/
theorem lane_transparent (i : Nat) : lane 0x00 i = 0 := BitVec.extractLsb'_zero

/-- R26: a byte whose last two lanes are 0 has its low four bits 0. -/
theorem low_nibble_eq_zero {b : Byte} (h2 : lane b 2 = 0) (h3 : lane b 3 = 0) : b &&& 0x0F = 0 := by
  revert b
  decide

/-- Settles O20: lane by lane again; at a width two beyond a multiple of four, lanes 2 and 3 of the last group of a row
are those of the padding columns `W` and `W + 1`. -/
theorem uniformRastersAndPadding : Obligations.UniformRastersAndPadding := by
  intro c s h hw hh
  refine ⟨fun hW hopaque k hk => byte_eq_of_lanes fun i hi => ?_,
    fun htransparent k hk => byte_eq_of_lanes fun i hi => ?_, fun hW y hy => ?_⟩
  · have hcol : 4 * (k % c.G) + i < c.W := by
      have hG : 4 * c.G = c.W := by unfold Canvas.G; omega
      have hgroup := Nat.mod_lt k (canvas_G_pos c)
      omega
    rw [lane_encodeOn_byteAt hw hh h hk hi, groupLevel, if_pos hcol, hopaque _ _ hcol (row_lt_of_lt hk),
      lane_opaque hi]
    rfl
  · rw [lane_encodeOn_byteAt hw hh h hk hi, lane_transparent, groupLevel]
    split
    · rw [htransparent _ _ ‹_› (row_lt_of_lt hk)]
      rfl
    · rfl
  · have hlane : ∀ x, c.W ≤ x → x / 4 = c.G - 1 → lane ((encodeOn c s).byteAt (y * c.G + (c.G - 1))) (x % 4) = 0 := by
      intro x hx hgroup
      have hG := canvas_G_pos c
      rw [← hgroup]
      exact lane_encodeOn_padding hw hh h hx (by omega) hy
    have h2 := hlane c.W le_rfl (by unfold Canvas.G; omega)
    have h3 := hlane (c.W + 1) (Nat.le_succ _) (by unfold Canvas.G; omega)
    rw [hW] at h2
    rw [Nat.add_mod, hW] at h3
    exact low_nibble_eq_zero h2 h3

end Sys2Proof.Machine

/-!
PROOFS, family 42_lut_expander.md: the expander (O9, O13). The table of R56 is the four equations of `expand`, its bit form
is the level followed by six copies of one AND (`expand_eq_append`), and since CLASSIFY takes a table value back to its
level, the alphas that survive the round trip are the values of the table.
-/

namespace Sys2Proof.Machine

/-- Settles O9: the operation only drives its port, and the table gives the value at each level. -/
theorem expandRuns : Obligations.ExpandRuns := fun l _ =>
  ⟨_, expand l, rfl, rfl, rfl, rfl, congrArg expand, congrArg expand, congrArg expand, congrArg expand, rfl⟩

/-- R58 (a): one AND gate and wiring. -/
theorem expand_eq_append (l : Level) :
    expand l = l ++ BitVec.fill 6 (l.getLsbD 1 && l.getLsbD 0) := by
  revert l; decide

theorem expand_getLsbD (l : Level) (i : Nat) :
    (expand l).getLsbD i = if i < 6 then l.getLsbD 1 && l.getLsbD 0 else l.getLsbD (i - 6) := by
  rw [expand_eq_append, BitVec.getLsbD_append]
  split
  · rw [BitVec.getLsbD_fill, decide_eq_true ‹i < 6›, Bool.and_true]
  · rfl

/-- R56: the values of the table. -/
theorem exists_expand_eq_iff (a : Byte) : (∃ l, expand l = a) ↔ a = 0 ∨ a = 64 ∨ a = 128 ∨ a = 255 := by
  constructor
  · rintro ⟨l, rfl⟩
    revert l
    decide
  · rintro (rfl | rfl | rfl | rfl)
    exacts [⟨0, rfl⟩, ⟨1, rfl⟩, ⟨2, rfl⟩, ⟨3, rfl⟩]

/-- R58 (d): the round trip leaves a table value as it is. -/
theorem expand_classify_expand (l : Level) : expand (classify (expand l)) = expand l :=
  congrArg expand (classify_expand l)

/-- R58 (b): the alphas that survive the round trip are the values of the table. -/
theorem expand_classify_eq_self_iff (a : Byte) : expand (classify a) = a ↔ ∃ l, expand l = a := by
  constructor
  · exact fun h => ⟨classify a, h⟩
  · rintro ⟨l, rfl⟩
    exact expand_classify_expand l

/-- Settles O13: bits 7 and 6 are the level and the others the AND; the round trip keeps exactly the table's values. -/
theorem expandProperties : Obligations.ExpandProperties := by
  refine ⟨fun l => ⟨expand_getLsbD l 7, expand_getLsbD l 6, fun i hi => (expand_getLsbD l i).trans (if_pos hi)⟩,
    fun a => (expand_classify_eq_self_iff a).trans (exists_expand_eq_iff a), classify_expand,
    fun a => expand_classify_expand (classify a), ?_⟩
  decide

end Sys2Proof.Machine

/-!
PROOFS, family 43_unpacker_decoder.md: the unpacker (O10), what a DECODE leaves (O23, O22) and the two round trips (O27,
O28). The values of the pixels are `decodeOn_pixelAt`; here stand which pixels are written (`State.PixelWritten`),
followed group by group, and what else a DECODE changes (`decodeOn_frame`). A round trip reads the closed form of its
second command in the state its first one leaves.
-/

namespace Sys2Proof.Machine

/-! ### The unpacker -/

/-- R7, R26: a lane as a number. -/
theorem lane_toNat (b : Byte) (i : Nat) : (lane b i).toNat = b.toNat / 2 ^ (6 - 2 * i) % 4 := by
  rw [lane, BitVec.extractLsb'_toNat, Nat.shiftRight_eq_div_pow]

/-- Settles O10: the four levels are the lanes of the byte, and the operation only drives its port. -/
theorem unpack4Runs : Obligations.Unpack4Runs := by
  refine ⟨unpack4_pack4, fun b s => ⟨_, unpack4 b, rfl, rfl, ?_⟩⟩
  rw [pack4_unpack4, unpack4_eq_lanes]
  exact ⟨lane_toNat b 0, lane_toNat b 1, lane_toNat b 2,
    (lane_toNat b 3).trans (congrArg (· % 4) (Nat.div_one _)), rfl, rfl⟩

/-! ### Which pixels are written -/

/-- After a write an index is listed if it was listed before or is the one written. -/
theorem Memory.isSome_lookup_write {α : Type} (m : Memory α) (k j : Nat) (v : α) :
    (Memory.lookup (Memory.write m k v) j).isSome = true ↔ j = k ∨ (Memory.lookup m j).isSome = true := by
  have hcons : ∀ (i : Nat) (w : α) (m' : Memory α), (Memory.lookup ((i, w) :: m') j).isSome = true ↔
      j = i ∨ (Memory.lookup m' j).isSome = true := by
    intro i w m'
    rw [Memory.lookup_cons]
    split
    · simp [‹i = j›]
    · simp [Ne.symm ‹i ≠ j›]
  induction m with
  | nil => exact hcons k v []
  | cons e m ih =>
    obtain ⟨i, w⟩ := e
    unfold Memory.write
    split
    · exact hcons k v _
    · split
      · rw [hcons, hcons, ‹k = i›, ← or_assoc, or_self]
      · rw [hcons, hcons, or_congr_right ih, or_left_comm]

/-- R77: the pixel at `(x, y)` has been written since the last reset. -/
def State.PixelWritten (c : Canvas) (s : State) (x y : Nat) : Prop :=
  (Memory.lookup s.rast (pixelIndex c x y)).isSome = true

/-- R60: a lane of the decoder writes its own pixel, if that is on the canvas. -/
theorem storeLane_pixelWritten {c : Canvas} {x' : Nat} (hx' : x' < c.W) (x y y' : Nat) (l : Level) (s : State) :
    (storeLane c x y l s).PixelWritten c x' y' ↔ (x' = x ∧ y' = y) ∨ s.PixelWritten c x' y' := by
  unfold storeLane
  split
  · have hindex : pixelIndex c x' y' = pixelIndex c x y ↔ x' = x ∧ y' = y :=
      ⟨pixelIndex_inj hx' ‹_›, fun ⟨hx, hy⟩ => by rw [hx, hy]⟩
    rw [← hindex]
    exact Memory.isSome_lookup_write ..
  · have hout : ¬ (x' = x ∧ y' = y) := by omega
    rw [or_iff_right hout]

/-- R60: a group of the decoder writes the pixels of its four columns. -/
theorem storeGroup_pixelWritten {c : Canvas} {x x' : Nat} (hx : x % 4 = 0) (hx' : x' < c.W) (y y' : Nat) (g : Levels)
    (s : State) :
    (storeGroup c x y g s).PixelWritten c x' y' ↔ (x' / 4 = x / 4 ∧ y' = y) ∨ s.PixelWritten c x' y' := by
  have hcolumn : x' / 4 = x / 4 ↔ x' = x + 3 ∨ x' = x + 2 ∨ x' = x + 1 ∨ x' = x := by omega
  simp only [storeGroup, storeLane_pixelWritten hx', hcolumn, or_and_right, or_assoc]

/-- R60: a group step of DECODE writes the pixels whose byte is that of `CUR`. -/
theorem decodeGroup_pixelWritten {c : Canvas} {q : Sequencer} (hr : q.inRange c = true) {x : Nat} (hx : x < c.W)
    (y : Nat) (s : State) :
    (decodeGroup c q s).PixelWritten c x y ↔ byteIndex c x y = q.cur.toNat ∨ s.PixelWritten c x y := by
  obtain ⟨-, hqx, hqx4, hcur, -⟩ := Sequencer.inRange_iff.mp hr
  have hiff : byteIndex c x y = q.cur.toNat ↔ x / 4 = q.x.toNat / 4 ∧ y = q.y.toNat := by
    rw [hcur]
    exact byteIndex_inj hx hqx
  rw [hiff]
  exact storeGroup_pixelWritten hqx4 hx ..

/-- R20: below group `N` one step more of a DECODE is the group step at its number. -/
theorem runEngine_decoder_succ {c : Canvas} (s : State) {n : Nat} (hn : n < c.N) :
    ∃ q, q.cur.toNat = n ∧ q.inRange c = true ∧
      runEngine c (n + 1) (s.issue .decoder) = decodeGroup c q (runEngine c n (s.issue .decoder)) := by
  obtain ⟨-, q, hq, he, rfl, hr⟩ := runEngine_runsAt c .decoder s hn.le
  have hy : q.y.toNat < c.H := by
    rw [(Sequencer.position_of_inRange hr).1]
    exact row_lt_of_lt hn
  refine ⟨q, rfl, hr, ?_⟩
  rw [runEngine_succ, engineStep_of_lt hq hy, groupStep, he]

/-- R60: `n` steps of a DECODE, up to `N`, write the pixels of the first `n` groups. -/
theorem runEngine_decoder_pixelWritten {c : Canvas} (s : State) {n x : Nat} (hn : n ≤ c.N) (hx : x < c.W) (y : Nat) :
    (runEngine c n (s.issue .decoder)).PixelWritten c x y ↔ byteIndex c x y < n ∨ s.PixelWritten c x y := by
  induction n with
  | zero => exact (or_iff_right (Nat.not_lt_zero _)).symm
  | succ n ih =>
    obtain ⟨q, hcur, hr, hstep⟩ := runEngine_decoder_succ s hn
    rw [hstep, decodeGroup_pixelWritten hr hx, hcur, ih (Nat.le_of_succ_le hn), Nat.lt_succ_iff_lt_or_eq,
      or_left_comm, or_assoc]

/-- R60: a DECODE changes the raster and the sequencer alone while it runs. -/
theorem runEngine_decoder_frame {c : Canvas} (s : State) {n : Nat} (hn : n ≤ c.N) :
    ∃ m q, runEngine c n (s.issue .decoder) = { s.issue .decoder with rast := m, seq := q } := by
  induction n with
  | zero => exact ⟨_, _, rfl⟩
  | succ n ih =>
    obtain ⟨m, q', hrun⟩ := ih (Nat.le_of_succ_le hn)
    obtain ⟨q, -, -, hstep⟩ := runEngine_decoder_succ s hn
    rw [hstep, decodeGroup_frame, hrun]
    exact ⟨_, _, rfl⟩

/-! ### What a DECODE leaves -/

section
variable {c : Canvas} {s : State} (hn : s.slen.toNat = c.N)
include hn

/-- R13, R71: the registers after a DECODE whose check passed. -/
theorem decodeOn_registers : (decodeOn c s).rw = BitVec.ofNat 16 c.W ∧ (decodeOn c s).rh = BitVec.ofNat 16 c.H ∧
    (decodeOn c s).status = 0x02 ∧ (decodeOn c s).seq = none := by
  rw [decodeOn_eq_complete hn]
  exact ⟨rfl, rfl, statusCompleted_eq.1, rfl⟩

/-- R13: the shape a DECODE declares is the canvas's. -/
theorem decodeOn_shape : (decodeOn c s).rw.toNat = c.W ∧ (decodeOn c s).rh.toNat = c.H := by
  obtain ⟨hrw, hrh, -, -⟩ := decodeOn_registers hn
  rw [hrw, hrh, BitVec.toNat_ofNat, BitVec.toNat_ofNat]
  exact ⟨Nat.mod_eq_of_lt (Nat.lt_succ_of_le c.hW.2), Nat.mod_eq_of_lt (Nat.lt_succ_of_le c.hH.2)⟩

/-- R60: a DECODE changes the raster, its shape, `STATUS` and the sequencer alone. -/
theorem decodeOn_frame : decodeOn c s = { s with
    rast := (decodeOn c s).rast, rw := (decodeOn c s).rw, rh := (decodeOn c s).rh,
    status := (decodeOn c s).status, seq := none } := by
  obtain ⟨m, q, hrun⟩ := runEngine_decoder_frame s (le_refl c.N)
  rw [decodeOn_eq_complete hn, hrun]
  rfl

/-- R61: a DECODE writes every pixel of the canvas. -/
theorem decodeOn_pixelWritten {x y : Nat} (hx : x < c.W) (hy : y < c.H) : (decodeOn c s).PixelWritten c x y := by
  rw [decodeOn_eq_complete hn]
  exact (runEngine_decoder_pixelWritten s le_rfl hx y).mpr (.inl (byteIndex_lt hx hy))

end

/-- Settles O23: every pixel decodes from its own lane and is listed as written. -/
theorem decodePixelsOnEveryCanvas : Obligations.DecodePixelsOnEveryCanvas := by
  intro c s h hn
  obtain ⟨-, -, hstatus, -⟩ := decodeOn_registers hn
  obtain ⟨hrw, hrh⟩ := decodeOn_shape hn
  exact ⟨fun x y => decodeOn_pixelAt h hn, fun x y => decodeOn_pixelWritten hn, hrw, hrh, hstatus⟩

/-- Settles O22: with the length declared the command is not refused and passes its check, so it decodes all groups. -/
theorem decodeCompletes : Obligations.DecodeCompletes := by
  intro s hinv hb hslen
  have hn : s.slen.toNat = Config.canvas.N := by rw [hslen]; rfl
  have hexec : exec .decode s = .next (decodeOn Config.canvas s) := by
    change execDecode s = _
    rw [execDecode, hb]
    rfl
  obtain ⟨hrw, hrh, hstatus, hseq⟩ := decodeOn_registers hn
  exact ⟨_, hexec, hstatus, hrw, hrh, hseq, fun x y => decodeOn_pixelAt hinv.rast_wf hn, decodeOn_frame hn⟩

/-! ### Round trips -/

/-- R15: the length an ENCODE declares is that of the stream. -/
theorem encodeOn_length {c : Canvas} {s : State} (hw : s.rw.toNat = c.W) (hh : s.rh.toNat = c.H) :
    (encodeOn c s).slen.toNat = c.N := by
  rw [(encodeOn_registers hw hh).1, BitVec.toNat_ofNat, Nat.mod_eq_of_lt (canvas_N_lt c)]

/-- Settles O27: the DECODE reads each pixel's class from the lane where the ENCODE put it. -/
theorem encodeThenDecode : Obligations.EncodeThenDecode := by
  intro c s hinv hw hh
  have hn := encodeOn_length hw hh
  have hinv' := (encodeOn_commandEnd c s).inv hinv
  obtain ⟨-, -, hstatus, -⟩ := decodeOn_registers hn
  refine ⟨hstatus, fun x y hx hy => ?_⟩
  have hx4 : x < 4 * c.G := by unfold Canvas.G; omega
  rw [decodeOn_pixelAt hinv'.rast_wf hn hx hy, lane_encodeOn_byteIndex hw hh hinv.strm_wf hx4 hy, if_pos hx]
  exact ⟨rfl, classify_expand _⟩

/-- R63: after DECODE and ENCODE a lane that carries a pixel is as it was, and a padding lane is 0. -/
theorem lane_encodeOn_decodeOn {c : Canvas} {s : State} (hinv : State.Inv c s) (hn : s.slen.toNat = c.N) {x y : Nat}
    (hx : x < 4 * c.G) (hy : y < c.H) :
    lane ((encodeOn c (decodeOn c s)).byteAt (byteIndex c x y)) (x % 4) =
      if x < c.W then lane (s.byteAt (byteIndex c x y)) (x % 4) else 0 := by
  have hinv' := (decodeOn_commandEnd c s).inv hinv
  obtain ⟨hw, hh⟩ := decodeOn_shape hn
  rw [lane_encodeOn_byteIndex hw hh hinv'.strm_wf hx hy]
  split
  · rw [decodeOn_pixelAt hinv.rast_wf hn ‹_› hy]
    exact classify_expand _
  · rfl

/-- Settles O28: lane by lane; when `W` is a multiple of 4 every lane of the stream carries a pixel. -/
theorem decodeThenEncode : Obligations.DecodeThenEncode := by
  intro c s hinv hn
  obtain ⟨hw, hh⟩ := decodeOn_shape hn
  refine ⟨(encodeOn_registers hw hh).2.1, fun x y => lane_encodeOn_decodeOn hinv hn,
    fun hW k hk => byte_eq_of_lanes fun i hi => ?_⟩
  -- lane `i` of byte `k` is the pixel in column `4 * (k % G) + i` of row `k / G`
  have hgroup := Nat.mod_lt k (canvas_G_pos c)
  have hcol : 4 * (k % c.G) + i < c.W := by unfold Canvas.G at *; omega
  have hlane := lane_encodeOn_decodeOn hinv hn (x := 4 * (k % c.G) + i) (by omega) (row_lt_of_lt hk)
  have hdiv : (4 * (k % c.G) + i) / 4 = k % c.G := by omega
  have hmod : (4 * (k % c.G) + i) % 4 = i := by omega
  rwa [if_pos hcol, byteIndex, hdiv, hmod, Nat.div_add_mod'] at hlane

end Sys2Proof.Machine

/-!
PROOFS, family 60_exceptions.md: raising an error (O35, O18, O24), what a command does not look at: the descriptors that
are not its own (O37) and the earlier `STATUS` (O38). A command whose check fails is `State.raise` in the state it finds.
Until its end a run of an engine neither reads nor writes a descriptor (`runEngine_declare`), so the descriptors that a
command does not check stand in its outcome as they stood before it, or are overwritten there.
-/

namespace Sys2Proof.Machine

/-! ### Raising an error -/

/-- R18: the reserved bits of a completed `STATUS` are 0 already. -/
theorem statusCompleted_and (e : Err) : statusCompleted e &&& 0x0F = statusCompleted e := by
  cases e <;> decide

/-- Settles O35: the fields of `STATUS` are those of a completion with the error's code, and `raise` sets `STATUS` alone. -/
theorem raiseChangesStatusOnly : Obligations.RaiseChangesStatusOnly := by
  intro s e
  refine ⟨s.raise_busy e, s.raise_done e, (s.raise_err e).trans ?_, statusCompleted_and e, rfl⟩
  cases e <;> rfl

/-- R65: the check of ENCODE, as numbers. -/
theorem shapeOk_iff {c : Canvas} {s : State} : shapeOk c s = true ↔ s.rw.toNat = c.W ∧ s.rh.toNat = c.H := by
  simp only [shapeOk, Bool.and_eq_true, decide_eq_true_eq]

/-- R66: the check of DECODE, as a number. -/
theorem lengthOk_iff {c : Canvas} {s : State} : lengthOk c s = true ↔ s.slen.toNat = c.N := decide_eq_true_iff

/-- R53: ENCODE of a raster that is not of the canvas's shape raises its error in the state it finds. -/
theorem encodeOn_of_shape_ne {c : Canvas} {s : State} (h : ¬(s.rw.toNat = c.W ∧ s.rh.toNat = c.H)) :
    encodeOn c s = s.raise .shape :=
  if_neg (shapeOk_iff.not.mpr h)

/-- R60: DECODE of a stream that is not of the canvas's length raises its error in the state it finds. -/
theorem decodeOn_of_length_ne {c : Canvas} {s : State} (h : s.slen.toNat ≠ c.N) : decodeOn c s = s.raise .length :=
  if_neg (lengthOk_iff.not.mpr h)

/-- R38: with no command running ENCODE is not refused. -/
theorem exec_encode_of_not_busy {s : State} (hb : s.busy = false) :
    exec .encode s = .next (encodeOn Config.canvas s) :=
  if_neg (Bool.eq_false_iff.mp hb)

/-- R38: with no command running DECODE is not refused. -/
theorem exec_decode_of_not_busy {s : State} (hb : s.busy = false) :
    exec .decode s = .next (decodeOn Config.canvas s) :=
  if_neg (Bool.eq_false_iff.mp hb)

/-- Settles O18: the check of ENCODE fails, on every canvas and so on this hardware's, and 0x06 is the raised `STATUS`. -/
theorem encodeShapeError : Obligations.EncodeShapeError := by
  have hencode : ∀ (c : Canvas) (s : State), s.rw.toNat ≠ c.W ∨ s.rh.toNat ≠ c.H →
      encodeOn c s = { s with status := 0x06, seq := none } := by
    intro c s h
    obtain ⟨-, hshape, -, -⟩ := statusCompleted_eq
    rw [encodeOn_of_shape_ne (not_and_or.mpr h), State.raise, hshape]
  refine ⟨hencode, fun s hb h => ?_⟩
  rw [exec_encode_of_not_busy hb, hencode Config.canvas s (h.imp BitVec.toNat_ne.mp BitVec.toNat_ne.mp)]

/-- Settles O24: the check of DECODE fails, on every canvas and so on this hardware's, and 0x0A is the raised `STATUS`. -/
theorem decodeLengthError : Obligations.DecodeLengthError := by
  have hdecode : ∀ (c : Canvas) (s : State), s.slen.toNat ≠ c.N →
      decodeOn c s = { s with status := 0x0A, seq := none } := by
    intro c s h
    obtain ⟨-, -, hlength, -⟩ := statusCompleted_eq
    rw [decodeOn_of_length_ne h, State.raise, hlength]
  refine ⟨hdecode, fun s hb h => ?_⟩
  rw [exec_decode_of_not_busy hb, hdecode Config.canvas s (BitVec.toNat_ne.mp h)]

/-! ### A run of an engine does not look at the descriptors -/

/-- The state with other values in the three descriptors (R13, R15). -/
def State.declare (s : State) (w h : BitVec 16) (n : BitVec 32) : State := { s with rw := w, rh := h, slen := n }

section
variable (c : Canvas) (w h : BitVec 16) (n : BitVec 32)

theorem storeLane_declare (x y : Nat) (l : Level) (s : State) :
    storeLane c x y l (s.declare w h n) = (storeLane c x y l s).declare w h n := by
  unfold storeLane
  split <;> rfl

theorem decodeGroup_declare (q : Sequencer) (s : State) :
    decodeGroup c q (s.declare w h n) = (decodeGroup c q s).declare w h n := by
  have hbyte : (s.declare w h n).byteAt q.cur.toNat = s.byteAt q.cur.toNat := rfl
  simp only [decodeGroup, storeGroup, hbyte, storeLane_declare]
  rfl

/-- R52, R60: a group step neither reads nor writes a descriptor. -/
theorem groupStep_declare (q : Sequencer) (s : State) :
    groupStep c q (s.declare w h n) = (groupStep c q s).declare w h n := by
  unfold groupStep
  split
  · rfl
  · exact decodeGroup_declare c w h n q s

/-- R53, R60: up to its last group a command neither reads nor writes a descriptor. -/
theorem runEngine_declare (e : Engine) (s : State) {k : Nat} (hk : k ≤ c.N) :
    runEngine c k ((s.declare w h n).issue e) = (runEngine c k (s.issue e)).declare w h n := by
  induction k with
  | zero => rfl
  | succ k ih =>
    obtain ⟨-, q, hq, -, rfl, hr⟩ := runEngine_runsAt c e s (Nat.le_of_succ_le hk)
    have hy : q.y.toNat < c.H := by
      rw [(Sequencer.position_of_inRange hr).1]
      exact row_lt_of_lt hk
    have hq' : ((runEngine c q.cur.toNat (s.issue e)).declare w h n).seq = some q := hq
    rw [runEngine_succ, runEngine_succ, ih (Nat.le_of_succ_le hk), engineStep_of_lt hq hy, engineStep_of_lt hq' hy,
      groupStep_declare]

end

/-- R69: another `SLEN` before an ENCODE makes no difference to anything but `SLEN` after it. -/
theorem encodeOn_setSlen (c : Canvas) (s : State) (n : BitVec 32) :
    ∃ m, encodeOn c { s with slen := n } = { encodeOn c s with slen := m } := by
  by_cases hshape : s.rw.toNat = c.W ∧ s.rh.toNat = c.H
  · obtain ⟨hw, hh⟩ := hshape
    have hrun : runEngine c c.N (State.issue { s with slen := n } .encoder) = _ :=
      runEngine_declare c s.rw s.rh n .encoder s le_rfl
    obtain ⟨-, hrw, hrh⟩ := runEngine_sameInput (c := c) c.N (s.issue_runsOnly .encoder)
    refine ⟨BitVec.ofNat 32 c.N, ?_⟩
    rw [encodeOn_eq_complete (s := { s with slen := n }) hw hh, encodeOn_eq_complete hw hh, hrun]
    simp only [State.complete, State.declare, hrw, hrh, State.issue_rw, State.issue_rh]
  · rw [encodeOn_of_shape_ne hshape, encodeOn_of_shape_ne (s := { s with slen := n }) hshape]
    exact ⟨n, rfl⟩

/-- R69: another `RW` and `RH` before a DECODE make no difference to anything but `RW` and `RH` after it. -/
theorem decodeOn_setShape (c : Canvas) (s : State) (w h : BitVec 16) :
    ∃ w' h', decodeOn c { s with rw := w, rh := h } = { decodeOn c s with rw := w', rh := h' } := by
  by_cases hn : s.slen.toNat = c.N
  · have hrun : runEngine c c.N (State.issue { s with rw := w, rh := h } .decoder) = _ :=
      runEngine_declare c w h s.slen .decoder s le_rfl
    obtain ⟨-, hslen⟩ := runEngine_sameInput (c := c) c.N (s.issue_runsOnly .decoder)
    refine ⟨BitVec.ofNat 16 c.W, BitVec.ofNat 16 c.H, ?_⟩
    rw [decodeOn_eq_complete (s := { s with rw := w, rh := h }) hn, decodeOn_eq_complete hn, hrun]
    simp only [State.complete, State.declare, hslen, State.issue_slen]
  · rw [decodeOn_of_length_ne hn, decodeOn_of_length_ne (s := { s with rw := w, rh := h }) hn]
    exact ⟨w, h, rfl⟩

/-- Settles O37: what the command does not check differs in the outcome only where it stood, and a success overwrites it. -/
theorem eachCommandMakesItsOneCheck : Obligations.EachCommandMakesItsOneCheck := by
  intro c s n w h
  obtain ⟨n', hencode⟩ := encodeOn_setSlen c s n
  obtain ⟨w', h', hdecode⟩ := decodeOn_setShape c s w h
  refine ⟨by rw [hencode], by rw [hencode], fun hok => ?_, by rw [hdecode], by rw [hdecode], fun hok => ?_⟩
  · obtain ⟨hw, hh⟩ := shapeOk_iff.mp hok
    exact encodeOn_length (s := { s with slen := n }) hw hh
  · exact decodeOn_shape (s := { s with rw := w, rh := h }) (lengthOk_iff.mp hok)

/-! ### An error leaves no trace -/

/-- R18: the write that issues a command sets `STATUS` anew. -/
theorem State.issue_setStatus (s : State) (v : BitVec 8) (e : Engine) :
    State.issue { s with status := v } e = s.issue e := rfl

/-- Settles O38: a command goes on from the state in which it is issued, which keeps nothing of the earlier `STATUS`. -/
theorem errorsLeaveNoTrace : Obligations.ErrorsLeaveNoTrace := by
  intro c s v
  refine ⟨?_, ?_⟩
  · rw [encodeOn, State.issue_setStatus]; rfl
  · rw [decodeOn, State.issue_setStatus]; rfl

end Sys2Proof.Machine

/-!
PROOFS, family 70_reset_and_hazards.md: how a command ends (O36, O30), what a buffer the host has fully written keeps out
of a command's outcome (O21, O26), reset and the waiting block (O46, O48). With the element it reads written since the last
reset, a read does not depend on the epoch; the outcome of a command is already known to depend on such reads alone
(`encodeDependsOnAlphaOnly`, `decodeIgnoresPadding`).
-/

namespace Sys2Proof.Machine

/-! ### How a command ends -/

/-- R18, R84: `STATUS` after a good end, field by field. -/
theorem State.status_fields_of_completed {t : State} (h : t.status = 0x02) :
    t.busy = false ∧ t.done = true ∧ t.err = 0 := by
  rw [← statusCompleted_eq.1] at h
  rw [State.busy, State.done, State.err, h]
  exact ⟨statusCompleted_busy _, statusCompleted_done _, statusCompleted_err _⟩

/-- R70, R84: a raised error is an error end. -/
theorem State.raise_errorEnd (s : State) (e : Err) : ErrorEnd s (s.raise e) e :=
  ⟨s.raise_busy e, s.raise_done e, s.raise_err e, rfl, rfl⟩

/-- R84: over every canvas an ENCODE whose check passed comes to a good end. -/
theorem encodeOn_goodEnd {c : Canvas} {s : State} (hw : s.rw.toNat = c.W) (hh : s.rh.toNat = c.H)
    (h : Memory.wf c.N s.strm = true) : GoodEncodeEnd c s (encodeOn c s) := by
  obtain ⟨-, hstatus, hseq⟩ := encodeOn_registers hw hh
  obtain ⟨hbusy, hdone, herr⟩ := State.status_fields_of_completed hstatus
  exact ⟨hbusy, hdone, herr, hseq, encodeOn_length hw hh, fun k => encodeOn_byteAt hw hh h, encodeOn_frame hw hh h⟩

/-- R84: over every canvas a DECODE whose check passed comes to a good end. -/
theorem decodeOn_goodEnd {c : Canvas} {s : State} (hn : s.slen.toNat = c.N)
    (h : Memory.wf (c.W * c.H) s.rast = true) : GoodDecodeEnd c s (decodeOn c s) := by
  obtain ⟨-, -, hstatus, hseq⟩ := decodeOn_registers hn
  obtain ⟨hbusy, hdone, herr⟩ := State.status_fields_of_completed hstatus
  obtain ⟨hw, hh⟩ := decodeOn_shape hn
  exact ⟨hbusy, hdone, herr, hseq, hw, hh, fun x y => decodeOn_pixelAt h hn, decodeOn_frame hn⟩

/-- Settles O36: the one check of the command decides between its good end and its error end. -/
theorem everyCommandEndsGoodOrInError : Obligations.EveryCommandEndsGoodOrInError := by
  intro s hinv hb
  have hshape : s.rw = 320 ∧ s.rh = 240 ↔ s.rw.toNat = Config.canvas.W ∧ s.rh.toNat = Config.canvas.H :=
    and_congr BitVec.toNat_inj.symm BitVec.toNat_inj.symm
  have hlength : s.slen = 19200 ↔ s.slen.toNat = Config.canvas.N := BitVec.toNat_inj.symm
  refine ⟨⟨_, exec_encode_of_not_busy hb, ?_⟩, ⟨_, exec_decode_of_not_busy hb, ?_⟩⟩
  · by_cases h : s.rw = 320 ∧ s.rh = 240
    · obtain ⟨hrw, hrh⟩ := h
      obtain ⟨hw, hh⟩ := hshape.mp ⟨hrw, hrh⟩
      exact .inl ⟨hrw, hrh, encodeOn_goodEnd hw hh hinv.strm_wf⟩
    · rw [encodeOn_of_shape_ne (hshape.not.mp h)]
      exact .inr ⟨h, s.raise_errorEnd .shape⟩
  · by_cases h : s.slen = 19200
    · exact .inl ⟨h, decodeOn_goodEnd (hlength.mp h) hinv.rast_wf⟩
    · rw [decodeOn_of_length_ne (hlength.not.mp h)]
      exact .inr ⟨h, s.raise_errorEnd .length⟩

/-- R71: the end of a command of either engine completes it without error. -/
theorem finish_completes (c : Canvas) (q : Sequencer) (s : State) :
    (finish c q s).status = 0x02 ∧ (finish c q s).seq = none := by
  unfold finish
  split
  · exact ⟨statusCompleted_eq.1, rfl⟩
  · exact ⟨statusCompleted_eq.1, rfl⟩

/-- Settles O30: up to `N` steps the command stands at a group of the scan, and at group `N` the next step ends it. -/
theorem commandTakesExactlyNGroupSteps : Obligations.CommandTakesExactlyNGroupSteps := by
  intro c e s
  refine ⟨fun n hn => ?_, ?_⟩
  · obtain ⟨hst, q, hq, -⟩ := runEngine_runsAt c e s hn
    rw [State.busy, hst, hq]
    exact ⟨statusIssued_busy, rfl⟩
  · obtain ⟨q, -, hfinish⟩ := (runEngine_runsAt c e s le_rfl).engineStep_eq_finish
    rw [runEngine_succ, hfinish]
    exact finish_completes c q _

/-! ### Fully written buffers -/

/-- R77, U6: a byte written since the last reset reads the same in every epoch. -/
theorem State.byteAt_setEpoch {s : State} {k : Nat} (h : (Memory.lookup s.strm k).isSome = true) (e : Nat) :
    State.byteAt { s with epoch := e } k = s.byteAt k := by
  obtain ⟨v, hv⟩ := Option.isSome_iff_exists.mp h
  simp only [State.byteAt, hv, Option.getD_some]

/-- R77, U6: a pixel written since the last reset reads the same in every epoch. -/
theorem State.PixelWritten.pixelAt_setEpoch {c : Canvas} {s : State} {x y : Nat} (h : s.PixelWritten c x y) (e : Nat) :
    State.pixelAt c { s with epoch := e } x y = s.pixelAt c x y := by
  obtain ⟨p, hp⟩ := Option.isSome_iff_exists.mp h
  simp only [State.pixelAt, hp, Option.getD_some]

/-- Settles O21: the stream depends on the pixels' alphas alone, and a written pixel keeps its own in every epoch. -/
theorem writtenRasterFixesStream : Obligations.WrittenRasterFixesStream := by
  intro c s e h hraster hw hh
  refine encodeDependsOnAlphaOnly c s { s with epoch := e } h h hw hh rfl rfl fun x y hx hy => ?_
  have hpixel : s.PixelWritten c x y := hraster x y hx hy
  rw [hpixel.pixelAt_setEpoch]

/-- Settles O26: the raster depends on the lanes of the stream alone, and a written byte keeps its own in every epoch. -/
theorem writtenStreamFixesRaster : Obligations.WrittenStreamFixesRaster := by
  intro c s e h hstream hn
  refine (decodeIgnoresPadding c s { s with epoch := e } h h hn rfl fun x y hx hy => ?_).2
  rw [State.byteAt_setEpoch (hstream _ (byteIndex_lt hx hy))]

/-! ### Reset and the waiting block -/

/-- Settles O46: a reset is allowed while a command runs, so it is always taken. -/
theorem resetFromAnyState : Obligations.ResetFromAnyState := fun _ _ hin => step_allowed hin rfl

/-- R76: with no command running the block left alone waits. -/
theorem idle_of_seq_none {c : Canvas} {s : State} (h : s.seq = none) : idle c s = .next s := by
  rw [idle, h]

/-- Settles O48: without an action of the host the step is what the block does alone. -/
theorem waitsForTheHost : Obligations.WaitsForTheHost := fun _ hin hseq =>
  (step_hostIn_nil hin).trans (idle_of_seq_none hseq)

end Sys2Proof.Machine

/-!
PROOFS, family other: words written out from the spec (O3). A word is decoded to the instruction whose encoding it is
(`decode_encode`), so only the encodings have to be evaluated; a word of the table is a code written to `CMD`.
-/

namespace Sys2Proof.Machine

/-- R43: a word of the table is the command that its code decodes to. -/
theorem decodeTableWord_of_decode {w : Byte} {i : Instr} (h : Sys2Proof.decode .cmd w = .ok i) :
    decodeTableWord 8 w.toNat = some i := by
  rw [decodeTableWord, if_pos ⟨le_rfl, w.isLt⟩, BitVec.ofNat_toNat, BitVec.setWidth_eq, h]

/-- R44: a reserved code is no word of the table. -/
theorem decodeTableWord_of_reserved {w : Byte} (h1 : w ≠ 0x01) (h2 : w ≠ 0x02) : decodeTableWord 8 w.toNat = none := by
  have hreserved : Sys2Proof.decode .cmd w = .error (.reservedCommand w) := decodeCommand_reserved h1 h2
  rw [decodeTableWord, if_pos ⟨le_rfl, w.isLt⟩, BitVec.ofNat_toNat, BitVec.setWidth_eq, hreserved]

/-- Settles O3: every word that decodes is the encoding of its instruction, and code 0 is reserved. -/
theorem specWordsDecode : Obligations.SpecWordsDecode :=
  ⟨decode_encode (.classify 85), decode_encode (.pack4 0 1 2 3), decode_encode (.pack4 3 0 0 0),
    decode_encode (.expand 2), decode_encode (.unpack4 0xE4), decodeTableWord_of_decode (decode_encode .encode),
    decodeTableWord_of_decode (decode_encode .decode), decodeTableWord_of_reserved (w := 0) (by decide) (by decide)⟩

end Sys2Proof.Machine
